-- ==== Sys2Proof/Word.lean ====
section
/-! DEFINITION. The bit-vector types of GHIL: what the spec treats as bits (00_scope.md R7, 10_state.md R47). -/

namespace Sys2Proof

/-- A 32-bit bus word: a lane register, a command word, the data of one host access (00_scope.md R6 `LW`, `BUSW`). -/
abbrev Word := BitVec 32

/-- One character cell, 8 bits (00_scope.md R6 `CELLW`; 10_state.md R35, R42). -/
abbrev Byte := BitVec 8

/-- One symbol, 5 bits (00_scope.md R6 `SYMW`; 10_state.md R32, R41). -/
abbrev Sym := BitVec 5

end Sys2Proof
end

