-- ==== Sys2Proof/Config.lean ====
section
/-! DEFINITION. The parameters of GHIL, 00_scope.md R6 Table P. No rule of the spec draws a free value (00_scope.md
R12), so nothing here is opaque. `BASE` is OPEN and is an argument of `Machine.windowOffset`; `T_CMD` is OPEN, no rule
depends on it (70_reset_and_hazards.md R226), and time is not part of the model. -/

namespace Sys2Proof

/-- `SYMW`: bits per symbol (source §3). -/
abbrev Config.symw : Nat := 5

/-- `DEFAULT_P`: the precision a software caller uses when none is given; never applied by GHIL (00_scope.md R20). -/
abbrev Config.defaultP : Nat := 9

/-- `LW`: width in bits of a lane register (D2). -/
abbrev Config.lw : Nat := 32

/-- `PMAX`: the largest precision a command accepts (D3). -/
abbrev Config.pmax : Nat := 12

/-- `NCELL`: cells in the symbol buffer and in the character buffer (D9). -/
abbrev Config.ncell : Nat := 12

/-- `WINDOW`: size in bytes of the register window (D6). -/
abbrev Config.window : Nat := 64

end Sys2Proof
end

