-- ==== Sys2Proof/Syntax.lean ====
section
/-! DEFINITION. The commands of GHIL: 30_encoding.md R104 Table O, spec/opcode_table.json, one constructor per row. -/

namespace Sys2Proof

/-- One command ("instruction" in the checklist's words, 00_scope.md R2). The only operand field is `len`
(30_encoding.md R103), an unsigned 4-bit precision used as it stands; every other operand is implicit
(10_state.md R48 Table W). All sixteen values of `len` can be written in a command word, so all sixteen are syntax;
`Instr.wellFormed` says which are legal precisions. -/
inductive Instr
  /-- `NOP`, 42_control.md R170. -/
  | nop
  /-- `CLEAR`, 42_control.md R171. -/
  | clear
  /-- `CLRERR`, 42_control.md R172. -/
  | clrerr
  /-- `PACK len`, 40_encode_path.md R131. -/
  | pack (len : BitVec 4)
  /-- `MAP len`, 40_encode_path.md R133. -/
  | map (len : BitVec 4)
  /-- `ENCODE len`, 40_encode_path.md R135. -/
  | encode (len : BitVec 4)
  /-- `LOOKUP len`, 41_decode_path.md R151. -/
  | lookup (len : BitVec 4)
  /-- `UNPACK len`, 41_decode_path.md R153. -/
  | unpack (len : BitVec 4)
  /-- `DECODE len`, 41_decode_path.md R156. -/
  | decode (len : BitVec 4)
  deriving DecidableEq, Repr

end Sys2Proof
end

