-- ==== Sys2Proof/WellFormed.lean ====
section
/-! DEFINITION. Which commands are legal: 30_encoding.md R104 Table O, column `len`. -/

namespace Sys2Proof

/-- A legal precision: 1 to `PMAX` (30_encoding.md R100 step 4). -/
def legalPrecision (len : BitVec 4) : Bool :=
  decide (1 ≤ len.toNat) && decide (len.toNat ≤ Config.pmax)

/-- A control command carries no operand and is legal as it stands; a data command is legal when its precision is
(30_encoding.md R103, R105: 3 control words and 6 x 12 data words). -/
def Instr.wellFormed : Instr → Bool
  | .nop => true
  | .clear => true
  | .clrerr => true
  | .pack len => legalPrecision len
  | .map len => legalPrecision len
  | .encode len => legalPrecision len
  | .lookup len => legalPrecision len
  | .unpack len => legalPrecision len
  | .decode len => legalPrecision len

end Sys2Proof
end

