-- ==== Sys2Proof/Decode.lean ====
section
/-! DEFINITION. The command word: 30_encoding.md R100 steps 1 to 4, R101 Table F, R103, R104 Table O. First the
decoder, total on every 32-bit word (R106), then the encoder. -/

namespace Sys2Proof

/-- Why a word is no command: the three steps of 30_encoding.md R100 that fault with IllegalCommand. -/
inductive DecodeReject
  /-- Step 1: bits 31:12 or 7:4 not all zero (R107 (b)). -/
  | reservedBits
  /-- Step 2: a reserved `op` (R107 (a)). -/
  | reservedOp
  /-- Step 3: a control command with `len` not 0 (R107 (c)). -/
  | controlLen
  deriving DecidableEq, Repr

/-- The verdict of 30_encoding.md R106 on a word: a legal command, or one of the two faults the word alone decides. -/
inductive Verdict
  | command (i : Instr)
  | invalidPrecision
  | illegalCommand
  deriving DecidableEq, Repr

/-- Field `op`, bits 3:0 (30_encoding.md R101 Table F). -/
def opField (w : Word) : BitVec 4 := w.extractLsb' 0 4

/-- Field `len`, bits 11:8. -/
def lenField (w : Word) : BitVec 4 := w.extractLsb' 8 4

/-- The two fields that must be zero, bits 31:12 and 7:4. -/
def reservedClear (w : Word) : Bool := w.extractLsb' 12 20 == 0#20 && w.extractLsb' 4 4 == 0#4

/-- A control command, which needs `len = 0` (step 3). -/
def controlCommand (len : BitVec 4) (i : Instr) : Except DecodeReject Instr :=
  if len = 0#4 then .ok i else .error .controlLen

/-- The command a word with clear reserved bits names: Table O, steps 2 and 3. A data command is recognised by its
`op` alone (its mask leaves `len` out); step 4 is `verdict`'s, and the command's own meaning applies it. -/
def decodeOp (op len : BitVec 4) : Except DecodeReject Instr :=
  match op with
  | 0b0000#4 => controlCommand len .nop
  | 0b0001#4 => controlCommand len .clear
  | 0b0010#4 => controlCommand len .clrerr
  | 0b0101#4 => .ok (.pack len)
  | 0b0110#4 => .ok (.map len)
  | 0b0111#4 => .ok (.encode len)
  | 0b1001#4 => .ok (.lookup len)
  | 0b1010#4 => .ok (.unpack len)
  | 0b1011#4 => .ok (.decode len)
  | _ => .error .reservedOp

/-- Steps 1 to 3 of 30_encoding.md R100. -/
def decode (w : Word) : Except DecodeReject Instr :=
  if reservedClear w then decodeOp (opField w) (lenField w) else .error .reservedBits

/-- Steps 1 to 4 of 30_encoding.md R100: the one verdict R106 gives each word. -/
def verdict (w : Word) : Verdict :=
  match decode w with
  | .error _ => .illegalCommand
  | .ok i => if i.wellFormed then .command i else .invalidPrecision

/-- The `op` of a command, 30_encoding.md R104 Table O. -/
def Instr.op : Instr → BitVec 4
  | .nop => 0b0000#4
  | .clear => 0b0001#4
  | .clrerr => 0b0010#4
  | .pack _ => 0b0101#4
  | .map _ => 0b0110#4
  | .encode _ => 0b0111#4
  | .lookup _ => 0b1001#4
  | .unpack _ => 0b1010#4
  | .decode _ => 0b1011#4

/-- The `len` of a command: its precision, or 0 for a control command. -/
def Instr.lenBits : Instr → BitVec 4
  | .nop => 0#4
  | .clear => 0#4
  | .clrerr => 0#4
  | .pack len => len
  | .map len => len
  | .encode len => len
  | .lookup len => len
  | .unpack len => len
  | .decode len => len

/-- The command word of a command: `(P << 8) | op` (30_encoding.md R103). -/
def encode (i : Instr) : Word :=
  ((i.lenBits.setWidth 32) <<< 8) ||| i.op.setWidth 32

/-- The command the decoder reads from the word whose bits are `w`, numbered as spec/opcode_table.json numbers them.
A command word is one 32-bit value and is given to `CMD` whole (20_memory.md R74), so no byte order enters. A row's
bits above `nbits` are zero; nothing is longer than 32 bits (30_encoding.md R101). -/
def decodeTableWord (nbits w : Nat) : Option Instr :=
  if nbits ≤ 32 then
    match decode (BitVec.ofNat 32 (w % 2 ^ nbits)) with
    | .ok i => some i
    | .error _ => none
  else none

end Sys2Proof
end

