-- ==== Sys2Proof/Machine/State.lean ====
section
/-! DEFINITION. The state of GHIL (10_state.md R47: 252 bits), the host actions that drive it (00_scope.md R11) and
their responses (60_exceptions.md R191), and the state after reset (10_state.md R62). -/

namespace Sys2Proof.Machine

/-- A buffer of `NCELL` = 12 cells (10_state.md R41, R42). -/
abbrev Cells (α : Type) := Vector α Config.ncell

/-- An offset in the 64-byte register window (20_memory.md R70). -/
abbrev Offset := Fin Config.window

/-- The widths a bus can offer (20_memory.md R74); GHIL accepts `bits32` only. -/
inductive AccessSize
  | bits8
  | bits16
  | bits32
  | bits64
  | burst
  deriving DecidableEq, Repr

/-- What a host or the platform does to GHIL (00_scope.md R9, R11). The data of a write wider or narrower than 32 bits
is never looked at (20_memory.md R74), so one word stands for it. An access has an offset and no bus address. DESIGN
CHOICE, log 4. -/
inductive HostAction
  /-- `BusRead(off)`, 20_memory.md R75. -/
  | read (size : AccessSize) (off : Offset)
  /-- `BusWrite(off, w)`, 20_memory.md R76. -/
  | write (size : AccessSize) (off : Offset) (w : Word)
  /-- `RESET`, 70_reset_and_hazards.md R210. -/
  | reset
  deriving DecidableEq, Repr

/-- The response to an access: `Ok word | Ok unit | BusError` (60_exceptions.md R191). -/
inductive Response
  /-- A completed read and the word it returns. -/
  | word (w : Word)
  /-- A completed write. -/
  | done
  /-- A refused access (20_memory.md R77). -/
  | busError
  deriving DecidableEq, Repr

/-- The host-visible registers, 10_state.md R47 Table M. -/
inductive Reg
  | cmd
  | status
  | lon
  | lat
  | nbits
  | chw (n : Fin 3)
  | syw (n : Fin 3)
  deriving DecidableEq, Repr

/-- How a command faults, with what its report carries (60_exceptions.md R180 Table E). A fault of a command is not a
stop of the machine: the command completes with a report in `STATUS` (R185). -/
inductive CmdFault
  /-- R181: the least index `k` with `CH[k]` outside the alphabet, and that cell. -/
  | invalidCharacter (idx : Fin Config.ncell) (ch : Byte)
  /-- R182. -/
  | invalidPrecision
  /-- R183. -/
  | illegalCommand
  deriving DecidableEq, Repr

/-- The two axes of the bit stream (10_state.md R30). -/
inductive Axis
  | longitude
  | latitude
  deriving DecidableEq, Repr

/-- The fields of `STATUS`, 10_state.md R45 Table S. -/
structure Status where
  /-- Outcome of the most recent command. -/
  err  : BitVec 3
  /-- Sticky: some command has faulted since the last `CLRERR` or reset. -/
  serr : Bool
  /-- Index of the first offending cell, for InvalidCharacter. -/
  eidx : BitVec 4
  /-- The offending cell, for InvalidCharacter. -/
  ech  : Byte
  deriving DecidableEq, Repr

/-- The fields of `NBITS`, 10_state.md R46 Table N. -/
structure NBits where
  nlon : BitVec 6
  nlat : BitVec 6
  len  : BitVec 4
  deriving DecidableEq, Repr

/-- The machine: the architectural state of 10_state.md R47, and two fields of the model's own (`pending`,
`response`), which render 00_scope.md R11's `step : State x HostAction -> State x Response` as one function of the
state. -/
structure State where
  /-- Longitude lane, left-justified (10_state.md R40). -/
  lon      : Word
  /-- Latitude lane, left-justified (10_state.md R40). -/
  lat      : Word
  /-- Symbol buffer `SYM[0..11]` (10_state.md R41). -/
  sym      : Cells Sym
  /-- Character buffer `CH[0..11]` (10_state.md R42). -/
  ch       : Cells Byte
  /-- Status register (10_state.md R45). -/
  status   : Status
  /-- Count register (10_state.md R46). -/
  nbits    : NBits
  /-- The model's own: host actions not yet applied, in the total order of the bus, oldest first
  (20_memory.md R80). DESIGN CHOICE, log 1. -/
  pending  : List HostAction
  /-- The model's own: the response to the most recent host action; none at first and after a reset.
  DESIGN CHOICE, log 2. -/
  response : Option Response
  deriving DecidableEq, Repr

/-- Why a step could stop the machine. There is no such reason: no command hangs, none has an undefined result
(00_scope.md R10), and no sequence of host actions leaves GHIL stuck (70_reset_and_hazards.md R228). A command's fault
is a `CmdFault`, whose report is a next state. -/
inductive Fault
  deriving DecidableEq, Repr

/-- Why a command could have no meaning in the model. -/
inductive Refusal
  /-- Raised by `exec` alone, for a command whose meaning is not written; none is left. Safe: nothing is proved of a
  run that meets it. -/
  | notModelled (mnemonic : String)
  deriving DecidableEq, Repr

/-- The outcome of a step or of a command. -/
abbrev Result := Host.Outcome State Fault Refusal

/-- `STATUS` with every field 0 (10_state.md R62). -/
def Status.zero : Status := ⟨0#3, false, 0#4, 0#8⟩

/-- `NBITS` with every field 0 (10_state.md R62). -/
def NBits.zero : NBits := ⟨0#6, 0#6, 0#4⟩

/-- The state after reset: every bit of the architectural state is 0 (10_state.md R62). No host action is pending and
none has been answered (logs 1 and 2). -/
def State.reset : State where
  lon := 0#32
  lat := 0#32
  sym := Vector.replicate Config.ncell 0#5
  ch := Vector.replicate Config.ncell 0#8
  status := Status.zero
  nbits := NBits.zero
  pending := []
  response := none

end Sys2Proof.Machine
end

