-- ==== Sys2Proof/Machine/Operands.lean ====
section
/-! DEFINITION. The operands of a command and the pure functions on them: precision (30_encoding.md R100 step 4), the
bit stream and its lanes (10_state.md R30 to R33), symbols (R32), the alphabet and its inverse (R34 to R36), and what
each data command computes from its operands (40_encode_path.md, 41_decode_path.md). -/

namespace Sys2Proof.Machine

/-- The precision `P = len` of a data command, when it is a legal one (30_encoding.md R100 step 4, R103). -/
def precision? (len : BitVec 4) : Option Nat :=
  if 1 ≤ len.toNat ∧ len.toNat ≤ Config.pmax then some len.toNat else none

/-- Bits in the longitude lane of a stream of precision `p`: `ceil(5P/2)` (10_state.md R33). -/
def nlonOf (p : Nat) : Nat := (Config.symw * p + 1) / 2

/-- Bits in the latitude lane: `floor(5P/2)` (10_state.md R33). -/
def nlatOf (p : Nat) : Nat := Config.symw * p / 2

/-- A buffer from its cells, lowest index first. -/
def tabulate {α : Type} (f : Fin Config.ncell → α) : Cells α :=
  #v[f 0, f 1, f 2, f 3, f 4, f 5, f 6, f 7, f 8, f 9, f 10, f 11]

/-- The `n`-bit vector whose bit `i` is `f i`. -/
def bitsOf : (n : Nat) → (Nat → Bool) → BitVec n
  | 0, _ => 0#0
  | n + 1, f => BitVec.cons (f n) (bitsOf n f)

/-- The one parity rule of GHIL, of the GLOBAL stream index (10_state.md R30). -/
def axis (i : Nat) : Axis := if i % 2 = 0 then .longitude else .latitude

/-- The position of stream bit `i` in its lane (10_state.md R31). -/
def laneIndex (i : Nat) : Nat := i / 2

/-- The stream index of bit `j` of a lane: `lon[j] = b[2j]`, `lat[j] = b[2j+1]` (10_state.md R31). -/
def streamIndex : Axis → Nat → Nat
  | .longitude, j => 2 * j
  | .latitude, j => 2 * j + 1

/-- The register bit that holds lane bit `j`: lanes are left-justified (10_state.md R40). -/
def laneRegBit (j : Nat) : Nat := 31 - j

/-- Stream bit `i` of two lanes (40_encode_path.md R131). -/
def streamBit (lon lat : Word) (i : Nat) : Bool :=
  match axis i with
  | .longitude => lon.getLsbD (laneRegBit (laneIndex i))
  | .latitude => lat.getLsbD (laneRegBit (laneIndex i))

/-- Symbol `k` of a stream: five bits, the first most significant (10_state.md R32). -/
def symbolOf (b : Nat → Bool) (k : Nat) : Sym :=
  BitVec.ofNat 5 (16 * (b (5 * k)).toNat + 8 * (b (5 * k + 1)).toNat + 4 * (b (5 * k + 2)).toNat
    + 2 * (b (5 * k + 3)).toNat + (b (5 * k + 4)).toNat)

/-- What `PACK` writes into the symbol buffer (40_encode_path.md R131). -/
def packSyms (lon lat : Word) (p : Nat) : Cells Sym :=
  tabulate fun k => if k.val < p then symbolOf (streamBit lon lat) k.val else 0#5

/-- The alphabet as cell codes, indexed by symbol (10_state.md R34, R35, the list under Table A). -/
def alphaTable : List Byte :=
  [0x30, 0x31, 0x32, 0x33, 0x34, 0x35, 0x36, 0x37, 0x38, 0x39, 0x62, 0x63, 0x64, 0x65, 0x66, 0x67,
   0x68, 0x6A, 0x6B, 0x6D, 0x6E, 0x70, 0x71, 0x72, 0x73, 0x74, 0x75, 0x76, 0x77, 0x78, 0x79, 0x7A]

/-- `code(ALPHA(s))` (10_state.md R34, R35); its laws with `inv` are R37's. -/
def alpha (s : Sym) : Byte := alphaTable.getD s.toNat 0#8

/-- All 32 symbols, in order. -/
def allSyms : List Sym := (List.range 32).map (BitVec.ofNat 5)

/-- `INV(c)`: the symbol whose character has code `c`, or `none` for `invalid` (10_state.md R36); its laws with `alpha`
are R37's. -/
def inv (c : Byte) : Option Sym := allSyms.find? fun s => alpha s == c

/-- What `MAP` writes into the character buffer (40_encode_path.md R133). -/
def mapCells (sym : Cells Sym) (p : Nat) : Cells Byte :=
  tabulate fun k => if k.val < p then alpha sym[k] else 0x00#8

/-- The cell indices, ascending. -/
def cellIndices : List (Fin Config.ncell) := [0, 1, 2, 3, 4, 5, 6, 7, 8, 9, 10, 11]

/-- The least `k < p` with `INV(CH[k]) = invalid`, if there is one (41_decode_path.md R151; 60_exceptions.md R181).
Cells from `p` on are not examined. -/
def firstInvalid (ch : Cells Byte) (p : Nat) : Option (Fin Config.ncell) :=
  cellIndices.find? fun k => decide (k.val < p) && (inv ch[k]).isNone

/-- What `LOOKUP` writes into the symbol buffer once every `CH[k]`, `k < p`, is valid (41_decode_path.md R151); the
default is then never taken. -/
def lookupSyms (ch : Cells Byte) (p : Nat) : Cells Sym :=
  tabulate fun k => if k.val < p then (inv ch[k]).getD 0#5 else 0#5

/-- Stream bit `i` of a symbol buffer: bit `4 - (i mod 5)` of symbol `i div 5` (41_decode_path.md R153). -/
def symBit (sym : Cells Sym) (i : Nat) : Bool :=
  if h : i / 5 < Config.ncell then (sym[i / 5]).getLsbD (4 - i % 5) else false

/-- What `UNPACK` writes into the lane of an axis: the stream bits of that axis below `5P`, left-justified, and zero
below them (41_decode_path.md R153). -/
def unpackLane (a : Axis) (sym : Cells Sym) (p : Nat) : Word :=
  bitsOf 32 fun r =>
    let i := streamIndex a (31 - r)
    decide (i < Config.symw * p) && symBit sym i

/-- Word `n` of the character buffer, lowest-numbered cell in the least significant byte (20_memory.md R72). -/
def chWord (ch : Cells Byte) (n : Fin 3) : Word :=
  bitsOf 32 fun i => if h : 4 * n.val + i / 8 < Config.ncell then (ch[4 * n.val + i / 8]).getLsbD (i % 8) else false

/-- Word `n` of the symbol buffer; bits 7:5 of each byte read 0 (20_memory.md R72). -/
def symWord (sym : Cells Sym) (n : Fin 3) : Word :=
  bitsOf 32 fun i => if h : 4 * n.val + i / 8 < Config.ncell then (sym[4 * n.val + i / 8]).getLsbD (i % 8) else false

/-- The character buffer after a write of word `n` (20_memory.md R76). -/
def setChWord (ch : Cells Byte) (n : Fin 3) (w : Word) : Cells Byte :=
  tabulate fun k => if k.val / 4 = n.val then w.extractLsb' (8 * (k.val % 4)) 8 else ch[k]

/-- The symbol buffer after a write of word `n`: bits 7:5 of each byte are dropped (20_memory.md R76). -/
def setSymWord (sym : Cells Sym) (n : Fin 3) (w : Word) : Cells Sym :=
  tabulate fun k => if k.val / 4 = n.val then w.extractLsb' (8 * (k.val % 4)) 5 else sym[k]

end Sys2Proof.Machine
end

