-- ==== Sys2Proof/Machine/Flags.lean ====
section
/-! DEFINITION. The fields of `STATUS` and `NBITS`: what a success, a fault and an acknowledgement make of them
(10_state.md R45, R46; 60_exceptions.md R185, R189), and the words a host reads (20_memory.md R75). -/

namespace Sys2Proof.Machine

/-- The code of a fault in `STATUS.ERR` (60_exceptions.md R180 Table E). -/
def CmdFault.code : CmdFault → BitVec 3
  | .invalidCharacter _ _ => 1#3
  | .invalidPrecision => 2#3
  | .illegalCommand => 3#3

/-- `STATUS.EIDX` of a report: the index for InvalidCharacter, else 0 (60_exceptions.md R185). -/
def CmdFault.eidx : CmdFault → BitVec 4
  | .invalidCharacter k _ => BitVec.ofNat 4 k.val
  | .invalidPrecision => 0#4
  | .illegalCommand => 0#4

/-- `STATUS.ECH` of a report: the cell for InvalidCharacter, else 0x00 (60_exceptions.md R185). -/
def CmdFault.ech : CmdFault → Byte
  | .invalidCharacter _ c => c
  | .invalidPrecision => 0x00#8
  | .illegalCommand => 0x00#8

/-- `STATUS` after a command that succeeds: the report is cleared, `SERR` kept (30_encoding.md R100 step 6). -/
def Status.success (st : Status) : Status := { st with err := 0#3, eidx := 0#4, ech := 0x00#8 }

/-- `STATUS` after a command that faults (60_exceptions.md R185). -/
def Status.faulted (f : CmdFault) : Status := ⟨f.code, true, f.eidx, f.ech⟩

/-- `NBITS` after a data command of precision `p` succeeds (10_state.md R46). -/
def NBits.ofPrecision (p : Nat) : NBits :=
  ⟨BitVec.ofNat 6 (nlonOf p), BitVec.ofNat 6 (nlatOf p), BitVec.ofNat 4 p⟩

/-- `STATUS` as a host reads it: `zext_32(ECH ++ EIDX ++ SERR ++ ERR)` (20_memory.md R75). -/
def Status.word (st : Status) : Word :=
  (st.ech ++ st.eidx ++ BitVec.ofBool st.serr ++ st.err : BitVec (8 + 4 + 1 + 3)).setWidth 32

/-- `NBITS` as a host reads it: `NLON` in 5:0, `NLAT` in 13:8, `LEN` in 19:16, zero elsewhere (20_memory.md R75). -/
def NBits.word (nb : NBits) : Word :=
  (nb.len ++ 0#2 ++ nb.nlat ++ 0#2 ++ nb.nlon : BitVec (4 + 2 + 6 + 2 + 6)).setWidth 32

end Sys2Proof.Machine
end

