-- ==== Sys2Proof/Machine/Ops.lean ====
section
/-! DEFINITION. The named operations on the state: one update per field, success of a command, the fault of a command
(60_exceptions.md R185, "trap entry") and its acknowledgement (R189, "trap return"), the precision check every data
command begins with, and reset (70_reset_and_hazards.md R210). -/

namespace Sys2Proof.Machine

/-- `LON <- w`. -/
def State.setLon (s : State) (w : Word) : State := { s with lon := w }
/-- `LAT <- w`. -/
def State.setLat (s : State) (w : Word) : State := { s with lat := w }
/-- `SYM[0..11] <- c`. -/
def State.setSym (s : State) (c : Cells Sym) : State := { s with sym := c }
/-- `CH[0..11] <- c`. -/
def State.setCh (s : State) (c : Cells Byte) : State := { s with ch := c }
/-- `STATUS <- st`. -/
def State.setStatus (s : State) (st : Status) : State := { s with status := st }
/-- `NBITS <- nb`. -/
def State.setNBits (s : State) (nb : NBits) : State := { s with nbits := nb }
/-- The host actions still to be applied. -/
def State.setPending (s : State) (q : List HostAction) : State := { s with pending := q }
/-- The response the host gets. -/
def State.setResponse (s : State) (r : Option Response) : State := { s with response := r }

/-- A command succeeds: `ERR`, `EIDX`, `ECH` <- 0 and `SERR` unchanged (30_encoding.md R100 step 6). -/
def State.succeed (s : State) : State := s.setStatus s.status.success

/-- A data command of precision `p` succeeds: `NBITS` is written too (40_encode_path.md R130, 41_decode_path.md
R150). -/
def State.succeedData (s : State) (p : Nat) : State := (s.setNBits (NBits.ofPrecision p)).succeed

/-- A command faults: exactly the four writes of 60_exceptions.md R185 and no others (R186). Control goes nowhere
(R192) and the write to `CMD` completes normally. -/
def State.takeFault (s : State) (f : CmdFault) : State := s.setStatus (Status.faulted f)

/-- Acknowledgement: `SERR` and the per-command report are cleared, nothing else is restored (60_exceptions.md
R189). -/
def State.acknowledge (s : State) : State := s.setStatus Status.zero

/-- Step 4 of 30_encoding.md R100 for a data command: InvalidPrecision unless `len` is 1 to 12, else the command's own
rule with `P = len`. -/
def withPrecision (len : BitVec 4) (s : State) (rule : Nat → Result) : Result :=
  match precision? len with
  | some p => rule p
  | none => .next (s.takeFault .invalidPrecision)

/-- The collective validity check of `LOOKUP` and `DECODE`: InvalidCharacter with the least offending index and its
cell, before anything is written; else the rest of the rule (41_decode_path.md R151, R156). -/
def withValidCells (p : Nat) (s : State) (rule : Result) : Result :=
  match firstInvalid s.ch p with
  | some k => .next (s.takeFault (.invalidCharacter k s.ch[k]))
  | none => rule

/-- `RESET`: every bit of architectural state is 0 (70_reset_and_hazards.md R210). What the hosts will still do is not
GHIL's state and stays; a reset is no access and gets no response (logs 1 and 2). -/
def State.applyReset (s : State) : State := State.reset.setPending s.pending

end Sys2Proof.Machine
end

