-- ==== Sys2Proof/Machine/Control.lean ====
section
/-! DEFINITION. The control commands: NOP, CLEAR, CLRERR (42_control.md). -/

namespace Sys2Proof.Machine

/-- `NOP`: only the report of the previous command is overwritten (42_control.md R170). -/
def execNop (s : State) : Result := .next s.succeed

/-- `CLEAR`: all data state is zeroed, `SERR` kept (42_control.md R171). -/
def execClear (s : State) : Result :=
  .next (((((s.setLon 0#32).setLat 0#32).setSym (tabulate fun _ => 0#5)).setCh (tabulate fun _ => 0x00#8)).setNBits
    NBits.zero).succeed

/-- `CLRERR`: acknowledge faults (42_control.md R172). -/
def execClrerr (s : State) : Result := .next s.acknowledge

end Sys2Proof.Machine
end

