-- ==== Sys2Proof/Machine/DecodePath.lean ====
section
/-! DEFINITION. The decode direction, characters towards lanes: LOOKUP, UNPACK, DECODE (41_decode_path.md). -/

namespace Sys2Proof.Machine

/-- `LOOKUP P`: characters to symbols, or InvalidCharacter (41_decode_path.md R151). -/
def execLookup (len : BitVec 4) (s : State) : Result :=
  withPrecision len s fun p =>
    withValidCells p s (.next ((s.setSym (lookupSyms s.ch p)).succeedData p))

/-- `UNPACK P`: spread the symbols into the stream and split it into the lanes (41_decode_path.md R153). -/
def execUnpack (len : BitVec 4) (s : State) : Result :=
  withPrecision len s fun p =>
    .next (((s.setLon (unpackLane .longitude s.sym p)).setLat (unpackLane .latitude s.sym p)).succeedData p)

/-- `DECODE P`: the check and the writes of `LOOKUP`, then the writes of `UNPACK` on the new symbols, as one atomic
command (41_decode_path.md R156). -/
def execDecode (len : BitVec 4) (s : State) : Result :=
  withPrecision len s fun p =>
    let syms := lookupSyms s.ch p
    withValidCells p s
      (.next ((((s.setSym syms).setLon (unpackLane .longitude syms p)).setLat (unpackLane .latitude syms p)).succeedData
        p))

end Sys2Proof.Machine
end

