-- ==== Sys2Proof/Machine/EncodePath.lean ====
section
/-! DEFINITION. The encode direction, lanes towards characters: PACK, MAP, ENCODE (40_encode_path.md). -/

namespace Sys2Proof.Machine

/-- `PACK P`: interleave the lanes and cut the stream into symbols (40_encode_path.md R131). -/
def execPack (len : BitVec 4) (s : State) : Result :=
  withPrecision len s fun p => .next ((s.setSym (packSyms s.lon s.lat p)).succeedData p)

/-- `MAP P`: symbols to characters (40_encode_path.md R133). -/
def execMap (len : BitVec 4) (s : State) : Result :=
  withPrecision len s fun p => .next ((s.setCh (mapCells s.sym p)).succeedData p)

/-- `ENCODE P`: the writes of `PACK` and of `MAP` on the new symbols, as one atomic command (40_encode_path.md
R135). -/
def execEncode (len : BitVec 4) (s : State) : Result :=
  withPrecision len s fun p =>
    let syms := packSyms s.lon s.lat p
    .next (((s.setSym syms).setCh (mapCells syms p)).succeedData p)

end Sys2Proof.Machine
end

