-- ==== Sys2Proof/Machine/Dispatch.lean ====
section
/-! DEFINITION. The dispatcher: the effect of one decoded command (30_encoding.md R100 steps 4 to 6). -/

namespace Sys2Proof.Machine

def exec (i : Instr) (s : State) : Host.Outcome State Fault Refusal :=
  match i with
  | .nop => Sys2Proof.Machine.execNop s
  | .clear => Sys2Proof.Machine.execClear s
  | .clrerr => Sys2Proof.Machine.execClrerr s
  | .pack len => Sys2Proof.Machine.execPack len s
  | .map len => Sys2Proof.Machine.execMap len s
  | .encode len => Sys2Proof.Machine.execEncode len s
  | .lookup len => Sys2Proof.Machine.execLookup len s
  | .unpack len => Sys2Proof.Machine.execUnpack len s
  | .decode len => Sys2Proof.Machine.execDecode len s

end Sys2Proof.Machine
end

