-- ==== Sys2Proof/Machine/Bus.lean ====
section
/-! DEFINITION. The register window: which accesses are accepted, what a read returns, what a write does, and the one
function that applies a host action (20_memory.md R70 to R78, 30_encoding.md R100, 70_reset_and_hazards.md R210). -/

namespace Sys2Proof.Machine

/-- The offset of a bus address in a window at `base`, a multiple of 64 left OPEN by the spec; `none` for an address
that does not reach GHIL (20_memory.md R70). No step uses it: the model works in offsets (93 V6; log 4). -/
def windowOffset (base addr : Nat) : Option Offset :=
  if h : base ≤ addr ∧ addr - base < Config.window then some ⟨addr - base, h.2⟩ else none

/-- The register at an offset; `none` at a reserved or unaligned offset (10_state.md R47 Table M, 20_memory.md R74,
R78). -/
def regAt (off : Offset) : Option Reg :=
  match off.val with
  | 0x00 => some .cmd
  | 0x04 => some .status
  | 0x08 => some .lon
  | 0x0C => some .lat
  | 0x10 => some .nbits
  | 0x20 => some (.chw 0)
  | 0x24 => some (.chw 1)
  | 0x28 => some (.chw 2)
  | 0x30 => some (.syw 0)
  | 0x34 => some (.syw 1)
  | 0x38 => some (.syw 2)
  | _ => none

/-- The offset of a register (10_state.md R47 Table M). -/
def offsetOf : Reg → Offset
  | .cmd => 0x00
  | .status => 0x04
  | .lon => 0x08
  | .lat => 0x0C
  | .nbits => 0x10
  | .chw n => ⟨0x20 + 4 * n.val, by simp only [Config.window]; omega⟩
  | .syw n => ⟨0x30 + 4 * n.val, by simp only [Config.window]; omega⟩

/-- The register an access reaches, or `none` when the window refuses it: only 32-bit accesses at offsets that are
multiples of 4 and not reserved (20_memory.md R74, R78). -/
def accepted (size : AccessSize) (off : Offset) : Option Reg :=
  if size = .bits32 ∧ off.val % 4 = 0 then regAt off else none

/-- What a read of a register returns (20_memory.md R75). -/
def readReg (s : State) : Reg → Word
  | .cmd => 0#32
  | .status => s.status.word
  | .lon => s.lon
  | .lat => s.lat
  | .nbits => s.nbits.word
  | .chw n => chWord s.ch n
  | .syw n => symWord s.sym n

/-- A completed write of `w` to `CMD`: decode it and execute it to the end, or report IllegalCommand
(30_encoding.md R100). The word is not kept (10_state.md R44). -/
def runWord (s : State) (w : Word) : Result :=
  match decode w with
  | .ok i => exec i s
  | .error _ => .next (s.takeFault .illegalCommand)

/-- What a completed write to a register does (20_memory.md R76). -/
def writeReg (s : State) (w : Word) : Reg → Result
  | .cmd => runWord s w
  | .status => .next s
  | .lon => .next (s.setLon w)
  | .lat => .next (s.setLat w)
  | .nbits => .next s
  | .chw n => .next (s.setCh (setChWord s.ch n w))
  | .syw n => .next (s.setSym (setSymWord s.sym n w))

/-- One host action, applied to completion (00_scope.md R10, R11): an accepted read returns a word, an accepted write
takes effect, a refused access changes nothing and is answered with a bus error (20_memory.md R77), and a reset
resets. -/
def applyAction (s : State) : HostAction → Result
  | .read size off =>
    match accepted size off with
    | some r => .next (s.setResponse (some (.word (readReg s r))))
    | none => .next (s.setResponse (some .busError))
  | .write size off w =>
    match accepted size off with
    | some r => writeReg (s.setResponse (some .done)) w r
    | none => .next (s.setResponse (some .busError))
  | .reset => .next s.applyReset

/-- The oldest pending host action is taken from the queue and applied; with none pending GHIL does nothing, since it
has no step of its own (00_scope.md R11). -/
def applyPending (s : State) : Result :=
  match s.pending with
  | [] => .next s
  | a :: rest => applyAction (s.setPending rest) a

/-- A command word placed where the next step takes its command from: as the write to `CMD` that is delivered next
(10_state.md R44). DESIGN CHOICE, log 3. -/
def placeCommand (s : State) (w : Word) : State :=
  s.setPending (.write .bits32 (offsetOf .cmd) w :: s.pending)

end Sys2Proof.Machine
end

