-- ==== Sys2Proof/Machine/Step.lean ====
section
/-! DEFINITION. One step of the machine: one host action, atomically (00_scope.md R11, 70_reset_and_hazards.md
R220). -/

namespace Sys2Proof.Machine

/-- The next host action in bus order, applied to completion (20_memory.md R80). -/
def step (s : State) : Host.Outcome State Fault Refusal := applyPending s

/-- `s` with the command word of an opcode-table row delivered next: a write of the word to `CMD` at the head of the
pending host actions, so that the very next step runs it (log 3). -/
def State.withFetchWord (s : State) (nbits w : Nat) : State := placeCommand s (BitVec.ofNat 32 (w % 2 ^ nbits))

end Sys2Proof.Machine
end

