-- ==== Sys2Proof/Machine/Driver.lean ====
section
/-! DEFINITION. What stays in software around GHIL, as plain functions beside the machine: the host-script notation
(00_scope.md R9), the pseudo-operations (30_encoding.md R116), and the software side of the contract (00_scope.md R18,
R19, R21). The spec's scope leaves the last to software (00_scope.md R5); no step of the machine uses this file. The
spec states no floating-point format (91 N14): coordinates are exact rationals here. It leaves a precision above 12 to
the driver (91 N5): the scripts issue it while it fits the 4-bit field `len`, and there is no script for a longer
string. DESIGN CHOICE, log 5. -/

namespace Sys2Proof.Machine

/-- `WR reg, w` (00_scope.md R9). -/
def scriptWrite (r : Reg) (w : Word) : HostAction := .write .bits32 (offsetOf r) w

/-- `RD reg` (00_scope.md R9). -/
def scriptRead (r : Reg) : HostAction := .read .bits32 (offsetOf r)

/-- `CMD MNEMONIC len`: a write of the command word to `CMD` (00_scope.md R9, 30_encoding.md R103). -/
def scriptCommand (i : Instr) : HostAction := scriptWrite .cmd (encode i)

/-- `GH.ENCODE lon, lat, P`, up to the read of `STATUS` (30_encoding.md R116). A `P` of 13 to 15 is issued as it stands,
and GHIL refuses it (60_exceptions.md R182). DESIGN CHOICE, log 5: 91 N5 leaves `P` above 12 to the driver. -/
def ghEncode (lon lat : Word) (p : BitVec 4) : List HostAction :=
  [scriptWrite .lon lon, scriptWrite .lat lat, scriptCommand (.encode p), scriptRead .status]

/-- `st[2:0]`, the branch of both scripts on the `STATUS` word they read (30_encoding.md R116). -/
def scriptErr (st : Word) : BitVec 3 := st.extractLsb' 0 3

/-- The result reads of `GH.ENCODE` (30_encoding.md R116). -/
def ghEncodeResults (p : BitVec 4) : List HostAction :=
  scriptRead (.chw 0) :: ((if 4 < p.toNat then [scriptRead (.chw 1)] else [])
    ++ (if 8 < p.toNat then [scriptRead (.chw 2)] else []))

/-- What `GH.ENCODE` does once it has read `STATUS`: the result reads if `st[2:0] = 0`, else nothing more
(30_encoding.md R116). -/
def ghEncodeRest (p : BitVec 4) (st : Word) : List HostAction :=
  if scriptErr st = 0#3 then ghEncodeResults p else []

/-- The four bytes of a word, low-order first (20_memory.md R72). -/
def wordBytes (w : Word) : List Byte :=
  [w.extractLsb' 0 8, w.extractLsb' 8 8, w.extractLsb' 16 8, w.extractLsb' 24 8]

/-- What `GH.ENCODE` gives its caller. -/
inductive GhEncodeOutcome
  /-- `st[2:0] = 0`: the string. -/
  | string (c : List Byte)
  /-- `st[2:0]` not 0, for which R116 names no result: the `STATUS` word as read. DESIGN CHOICE, log 5. -/
  | failed (st : Word)
  deriving DecidableEq, Repr

/-- The result of `GH.ENCODE` from the `STATUS` word and the words of the result reads: the `P` low-order-first bytes
of `CHW0`, `CHW1`, `CHW2` (30_encoding.md R116). -/
def ghEncodeOutcome (p : BitVec 4) (st : Word) (ws : List Word) : GhEncodeOutcome :=
  if scriptErr st = 0#3 then .string ((ws.flatMap wordBytes).take p.toNat) else .failed st

/-- `GH.ENCODE.DEFAULT lon, lat`: the default precision lives in the driver (00_scope.md R20). -/
def ghEncodeDefault (lon lat : Word) : List HostAction := ghEncode lon lat (BitVec.ofNat 4 Config.defaultP)

/-- Word `n` of a string of characters; the cells beyond its end may hold anything and hold 0 here. DESIGN CHOICE,
log 5. -/
def stringWord (c : List Byte) (n : Nat) : Word :=
  bitsOf 32 fun i => (c.getD (4 * n + i / 8) 0#8).getLsbD (i % 8)

/-- `GH.DECODE c[0..P-1]`, up to the read of `STATUS`; `P` is the length of the string (30_encoding.md R116). DESIGN
CHOICE, log 5: for `P` above 12, where 91 N5 leaves the driver to split, refuse or fall back, a `P` of 13 to 15 is
issued as it stands and GHIL refuses it (60_exceptions.md R182), and for a length that the 4-bit field `len` cannot hold
there is no script (`none`): it is never cut down to another length. -/
def ghDecode (c : List Byte) : Option (List HostAction) :=
  if c.length < 16 then
    some (scriptWrite (.chw 0) (stringWord c 0) ::
      ((if 4 < c.length then [scriptWrite (.chw 1) (stringWord c 1)] else [])
        ++ (if 8 < c.length then [scriptWrite (.chw 2) (stringWord c 2)] else [])
        ++ [scriptCommand (.decode (BitVec.ofNat 4 c.length)), scriptRead .status]))
  else none

/-- The result reads of `GH.DECODE` (30_encoding.md R116). -/
def ghDecodeResults : List HostAction := [scriptRead .lon, scriptRead .lat, scriptRead .nbits]

/-- What `GH.DECODE` does once it has read `STATUS`: the result reads if `st[2:0] = 0`, else nothing more
(30_encoding.md R116). -/
def ghDecodeRest (st : Word) : List HostAction := if scriptErr st = 0#3 then ghDecodeResults else []

/-- What `GH.DECODE` gives its caller. -/
inductive GhDecodeOutcome
  /-- `st[2:0] = 0`: the words read from `LON`, `LAT`, `NBITS`. -/
  | lanes (lon lat nbits : Word)
  /-- `st[2:0] = 1`: the offending index and the offending byte. -/
  | invalidCharacter (index : BitVec 4) (byte : Byte)
  /-- `st[2:0]` neither 0 nor 1, for which R116 names no result: the `STATUS` word as read. DESIGN CHOICE, log 5. -/
  | failed (st : Word)
  deriving DecidableEq, Repr

/-- The result of `GH.DECODE` from the `STATUS` word and the words of the result reads: if `st[2:0] = 1`, the offending
index `st[7:4]` and the offending byte `st[15:8]` (30_encoding.md R116). Nothing for a list of words that the reads of
`ghDecodeRest` cannot give. -/
def ghDecodeOutcome (st : Word) (ws : List Word) : Option GhDecodeOutcome :=
  if scriptErr st = 0#3 then
    match ws with
    | [lon, lat, nbits] => some (.lanes lon lat nbits)
    | _ => none
  else if scriptErr st = 1#3 then some (.invalidCharacter (st.extractLsb' 4 4) (st.extractLsb' 8 8))
  else some (.failed st)

/-- `GH.ACK` (30_encoding.md R116). -/
def ghAck : List HostAction := [scriptCommand .clrerr]

/-- `GH.SCRUB` (30_encoding.md R116). -/
def ghScrub : List HostAction := [scriptCommand .clear]

/-! ### Running a script -/

/-- The word a response brings the host, if it is a completed read. -/
def readWords : Option Response → List Word
  | some (.word w) => [w]
  | some .done => []
  | some .busError => []
  | none => []

/-- A host runs the actions of a script, each delivered before anything else still pending: no other host comes between
(30_encoding.md R116, 70_reset_and_hazards.md R221). The answer is the state after them and the words read, in order. -/
def runScript : List HostAction → State → Option (State × List Word)
  | [], s => some (s, [])
  | a :: as, s =>
    match step (s.setPending (a :: s.pending)) with
    | .next t => (runScript as t).map fun r => (r.1, readWords t.response ++ r.2)
    | .fault _ => none
    | .refused _ => none

/-- A script whose last access reads `STATUS`, and then what the host does on the word `st` it read: the state at the
end, `st`, and the words read after it. -/
def runOnStatus (first : List HostAction) (rest : Word → List HostAction) (s : State) :
    Option (State × Word × List Word) :=
  match runScript first s with
  | some (t, [st]) => (runScript (rest st) t).map fun r => (r.1, st, r.2)
  | _ => none

/-- `GH.ENCODE lon, lat, P`, whole: the state it leaves and what it gives its caller (30_encoding.md R116). -/
def runGhEncode (lon lat : Word) (p : BitVec 4) (s : State) : Option (State × GhEncodeOutcome) :=
  (runOnStatus (ghEncode lon lat p) (ghEncodeRest p) s).map fun r => (r.1, ghEncodeOutcome p r.2.1 r.2.2)

/-- `GH.ENCODE.DEFAULT lon, lat`, whole: `GH.ENCODE lon, lat, 9` (30_encoding.md R116). -/
def runGhEncodeDefault (lon lat : Word) (s : State) : Option (State × GhEncodeOutcome) :=
  runGhEncode lon lat (BitVec.ofNat 4 Config.defaultP) s

/-- `GH.DECODE c[0..P-1]`, whole: the state it leaves and what it gives its caller (30_encoding.md R116); `none` for a
string that has no script (`ghDecode`, log 5). -/
def runGhDecode (c : List Byte) (s : State) : Option (State × GhDecodeOutcome) :=
  (ghDecode c).bind fun first =>
    (runOnStatus first ghDecodeRest s).bind fun r =>
      (ghDecodeOutcome r.2.1 r.2.2).map fun o => (r.1, o)

/-- The `n` bits of one axis, first halving first: bit 1 and the upper half when the coordinate is at or above the
midpoint, else bit 0 and the lower half (00_scope.md R18). -/
def quantiseBits (x : Rat) : Rat → Rat → Nat → List Bool
  | _, _, 0 => []
  | lo, hi, n + 1 =>
    let mid := (lo + hi) / 2
    if mid ≤ x then true :: quantiseBits x mid hi n else false :: quantiseBits x lo mid n

/-- A lane holding the bits of one axis, left-justified (00_scope.md R18, 10_state.md R40). -/
def laneOfBits (bs : List Bool) : Word := bitsOf 32 fun r => bs.getD (31 - r) false

/-- The lane of coordinate `x` in the range `[lo, hi]` with `n` bits (00_scope.md R18). Outside the range there is none:
DESIGN CHOICE, log 5, where the spec leaves the policy open (93 U2) and R18's loop as written would saturate. -/
def quantise (x lo hi : Rat) (n : Nat) : Option Word :=
  if lo ≤ x ∧ x ≤ hi then some (laneOfBits (quantiseBits x lo hi n)) else none

/-- The cell of a lane with `n` used bits: its top `n` bits as a number (00_scope.md R19). -/
def cellOfLane (lane : Word) (n : Nat) : Nat := lane.toNat / 2 ^ (32 - n)

/-- The span of a cell, `(hi - lo) / 2^n` (00_scope.md R19). -/
def cellSpan (lo hi : Rat) (n : Nat) : Rat := (hi - lo) / 2 ^ n

/-- The low edge of the cell of a lane (00_scope.md R19). -/
def cellLow (lane : Word) (lo hi : Rat) (n : Nat) : Rat := lo + cellOfLane lane n * cellSpan lo hi n

/-- The decoded coordinate: the midpoint of the cell (00_scope.md R19). -/
def cellMidpoint (lane : Word) (lo hi : Rat) (n : Nat) : Rat := cellLow lane lo hi n + cellSpan lo hi n / 2

/-- The lane unit of one cell with `n` used bits, `2^(32 - n)` (00_scope.md R21). -/
def laneUnit (n : Nat) : Int := 2 ^ (32 - n)

/-- A longitude step of `d` cells wraps modulo 2^32 (00_scope.md R21, 90_conflicts.md C2). -/
def stepLon (lon : Word) (p : Nat) (d : Int) : Word := BitVec.ofInt 32 (lon.toNat + d * laneUnit (nlonOf p))

/-- A latitude step of `d` cells; no meaning past a pole, which the spec leaves open (00_scope.md R21, 93 U5). -/
def stepLat (lat : Word) (p : Nat) (d : Int) : Option Word :=
  let q : Int := cellOfLane lat (nlatOf p) + d
  if 0 ≤ q ∧ q < 2 ^ nlatOf p then some (BitVec.ofInt 32 (lat.toNat + d * laneUnit (nlatOf p))) else none

end Sys2Proof.Machine
end

