-- ==== Sys2Proof/Machine/Serial.lean ====
section
/-! DEFINITION. The bit-serial readings of PACK and UNPACK (40_encode_path.md R132, 41_decode_path.md R154): the loops
an implementation may run inside one command. Their variables are the hidden state of 10_state.md R55, not
architectural, so no field of `State` holds them and no step runs them; they are here to be proved equal to the closed
forms the machine uses. -/

namespace Sys2Proof.Machine

/-- `cells[k] <- v`. -/
def setCell {α : Type} (buf : Cells α) (k : Nat) (v : α) : Cells α :=
  tabulate fun j => if j.val = k then v else buf[j]

/-- `w[r] <- b`. -/
def setRegBit (w : Word) (r : Nat) (b : Bool) : Word :=
  bitsOf 32 fun j => if j = r then b else w.getLsbD j

/-- The variables of the loop of 40_encode_path.md R132, and the buffer it writes. -/
structure PackLoop where
  acc  : Nat
  cnt  : Nat
  k    : Nat
  jlon : Nat
  jlat : Nat
  sym  : Cells Sym
  deriving DecidableEq, Repr

/-- The bit taken in iteration `i`, and the lane counters after it. -/
def takeLaneBit (lon lat : Word) (l : PackLoop) (i : Nat) : Bool × Nat × Nat :=
  match axis i with
  | .longitude => (lon.getLsbD (31 - l.jlon), l.jlon + 1, l.jlat)
  | .latitude => (lat.getLsbD (31 - l.jlat), l.jlon, l.jlat + 1)

/-- Iteration `i` of the loop of 40_encode_path.md R132. -/
def packIteration (lon lat : Word) (l : PackLoop) (i : Nat) : PackLoop :=
  let b := takeLaneBit lon lat l i
  let acc := (2 * l.acc + b.1.toNat) % 32
  if l.cnt + 1 = 5 then
    ⟨0, 0, l.k + 1, b.2.1, b.2.2, setCell l.sym l.k (BitVec.ofNat 5 acc)⟩
  else
    ⟨acc, l.cnt + 1, l.k, b.2.1, b.2.2, l.sym⟩

/-- The loop of 40_encode_path.md R132 at precision `p`, on a buffer that holds `c` before it. -/
def packSerial (lon lat : Word) (c : Cells Sym) (p : Nat) : PackLoop :=
  (List.range (5 * p)).foldl (packIteration lon lat) ⟨0, 0, 0, 0, 0, c⟩

/-- The variables of the loop of 41_decode_path.md R154. -/
structure UnpackLoop where
  lon  : Word
  lat  : Word
  jlon : Nat
  jlat : Nat
  i    : Nat
  deriving DecidableEq, Repr

/-- The inner iteration `t` for symbol `k` of the loop of 41_decode_path.md R154: the parity is of the global counter,
which is not reset at a symbol boundary. -/
def unpackIteration (sym : Cells Sym) (k : Nat) (l : UnpackLoop) (t : Nat) : UnpackLoop :=
  let bit := if h : k < Config.ncell then (sym[k]).getLsbD (4 - t) else false
  match axis l.i with
  | .longitude => ⟨setRegBit l.lon (31 - l.jlon) bit, l.lat, l.jlon + 1, l.jlat, l.i + 1⟩
  | .latitude => ⟨l.lon, setRegBit l.lat (31 - l.jlat) bit, l.jlon, l.jlat + 1, l.i + 1⟩

/-- The loops of 41_decode_path.md R154 at precision `p`. -/
def unpackSerial (sym : Cells Sym) (p : Nat) : UnpackLoop :=
  (List.range p).foldl (fun l k => (List.range 5).foldl (unpackIteration sym k) l) ⟨0#32, 0#32, 0, 0, 0⟩

end Sys2Proof.Machine
end

