-- ==== Sys2Proof/Safety.lean ====
section
/-! DEFINITION. What is true of every state a run can reach, and the relations the statements use, written from the
spec's own words (index formulas, the alphabet as printed) and not from the functions the machine computes with. -/

namespace Sys2Proof.Machine

/-- `STATUS` holds a report the spec can produce: `ERR` is 0 to 3 (10_state.md R45 Table S, 60_exceptions.md R180);
`EIDX` and `ECH` are 0 unless `ERR` is InvalidCharacter, and then name a cell of `CH` and a value outside the alphabet
(R181); a fault report comes with `SERR` set (R185). -/
def Status.Inv (st : Status) : Prop :=
  st.err.toNat ≤ 3 ∧
  (st.err = 1#3 → st.eidx.toNat < Config.ncell ∧ inv st.ech = none) ∧
  (st.err ≠ 1#3 → st.eidx = 0#4 ∧ st.ech = 0x00#8) ∧
  (st.err ≠ 0#3 → st.serr = true)

/-- `NBITS` is zero, or holds the counts of one legal precision (10_state.md R46 Table N). -/
def NBits.Inv (nb : NBits) : Prop :=
  nb = NBits.zero ∨ ∃ p, 1 ≤ p ∧ p ≤ Config.pmax ∧ nb = NBits.ofPrecision p

/-- The invariant of the machine: the read-only registers hold only what the spec says can appear in them. -/
def State.Inv (s : State) : Prop := s.status.Inv ∧ s.nbits.Inv

/-- `len` is a precision a command accepts, 1 to 12 (30_encoding.md R100 step 4). -/
def Legal (len : BitVec 4) : Prop := 1 ≤ len.toNat ∧ len.toNat ≤ 12

/-- The alphabet as the spec prints it (10_state.md R34). -/
def alphabet : List Char := "0123456789bcdefghjkmnpqrstuvwxyz".toList

/-- The code of a character: its ASCII code in one cell (10_state.md R35). -/
def charCode (c : Char) : Byte := BitVec.ofNat 8 c.toNat

/-- Cell value `c` is the code of the character at position `σ` of the alphabet (10_state.md R34 to R36). -/
def IsCodeOf (c : Byte) (σ : Sym) : Prop := (alphabet[σ.toNat]?).map charCode = some c

/-- Cell value `c` is the code of some character of the alphabet. -/
def InAlphabet (c : Byte) : Prop := ∃ ch ∈ alphabet, c = charCode ch

/-- Every one of the first `p` cells holds the code of a character of the alphabet. -/
def ValidCells (ch : Cells Byte) (p : Nat) : Prop := ∀ k : Fin 12, k.val < p → InAlphabet ch[k]

/-- `k` is the least index below `p` whose cell is outside the alphabet (60_exceptions.md R181). -/
def FirstBad (ch : Cells Byte) (p : Nat) (k : Fin 12) : Prop :=
  k.val < p ∧ ¬ InAlphabet ch[k] ∧ ∀ j : Fin 12, j < k → InAlphabet ch[j]

/-- `sym` is what PACK makes of two lanes at precision `p`: bit `4 - t` of symbol `k < p` is stream bit `i = 5k + t`,
which is `LON[31 - i div 2]` for even `i` and `LAT[31 - i div 2]` for odd `i`; symbols from `p` on are 0
(40_encode_path.md R131). -/
def SymbolsOfLanes (lon lat : Word) (p : Nat) (sym : Cells Sym) : Prop :=
  ∀ (k : Fin 12) (t : Fin 5), (sym[k]).getLsbD (4 - t.val) =
    (decide (k.val < p) &&
      (if (5 * k.val + t.val) % 2 = 0 then lon.getLsbD (31 - (5 * k.val + t.val) / 2)
       else lat.getLsbD (31 - (5 * k.val + t.val) / 2)))

/-- `ch` is what MAP makes of a symbol buffer at precision `p`: the code of the character of each symbol below `p`,
0x00 from `p` on (40_encode_path.md R133). -/
def CharsOfSymbols (sym : Cells Sym) (p : Nat) (ch : Cells Byte) : Prop :=
  ∀ k : Fin 12, (k.val < p → IsCodeOf ch[k] sym[k]) ∧ (p ≤ k.val → ch[k] = 0x00#8)

/-- `sym` is what LOOKUP makes of a character buffer at precision `p`: each symbol below `p` is the one whose code the
cell holds, 0 from `p` on (41_decode_path.md R151). -/
def SymbolsOfChars (ch : Cells Byte) (p : Nat) (sym : Cells Sym) : Prop :=
  ∀ k : Fin 12, (k.val < p → IsCodeOf ch[k] sym[k]) ∧ (p ≤ k.val → sym[k] = 0#5)

/-- The two lanes are what UNPACK makes of a symbol buffer at precision `p`: stream bit `i = 5k + t` of symbol `k < p`
is `LON[31 - i div 2]` for even `i` and `LAT[31 - i div 2]` for odd `i`; every other bit of both lanes is 0
(41_decode_path.md R153). -/
def LanesOfSymbols (sym : Cells Sym) (p : Nat) (lon lat : Word) : Prop :=
  (∀ (k : Fin 12) (t : Fin 5), k.val < p → (5 * k.val + t.val) % 2 = 0 →
    lon.getLsbD (31 - (5 * k.val + t.val) / 2) = (sym[k]).getLsbD (4 - t.val)) ∧
  (∀ (k : Fin 12) (t : Fin 5), k.val < p → (5 * k.val + t.val) % 2 = 1 →
    lat.getLsbD (31 - (5 * k.val + t.val) / 2) = (sym[k]).getLsbD (4 - t.val)) ∧
  (∀ j : Fin 32, 5 * p ≤ 2 * j.val → lon.getLsbD (31 - j.val) = false) ∧
  (∀ j : Fin 32, 5 * p ≤ 2 * j.val + 1 → lat.getLsbD (31 - j.val) = false)

/-- The report of a success: `ERR`, `EIDX`, `ECH` are 0 and `SERR` is as before (30_encoding.md R100 step 6). -/
def ReportCleared (s t : State) : Prop :=
  t.status.err = 0#3 ∧ t.status.eidx = 0#4 ∧ t.status.ech = 0x00#8 ∧ t.status.serr = s.status.serr

/-- What a data command of precision `p` that succeeds does beside its result: the report is cleared and `NBITS` holds
`p`, `ceil(5p/2)` and `floor(5p/2)` (10_state.md R33, R46). The hosts' queue and the response are not its business. -/
def DataSuccess (p : Nat) (s t : State) : Prop :=
  ReportCleared s t ∧
  t.nbits.len.toNat = p ∧ t.nbits.nlon.toNat = (5 * p + 1) / 2 ∧ t.nbits.nlat.toNat = 5 * p / 2 ∧
  t.pending = s.pending ∧ t.response = s.response

/-- The bits a lane keeps when only its top `n` are used: the others become 0 (10_state.md R40). -/
def TopBits (n : Nat) (before after : Word) : Prop :=
  ∀ r : Fin 32, after.getLsbD r.val = (decide (32 - n ≤ r.val) && before.getLsbD r.val)

/-- Two lanes agree on the top `n` bits. -/
def SameTopBits (n : Nat) (a b : Word) : Prop :=
  ∀ r : Fin 32, 32 - n ≤ r.val → a.getLsbD r.val = b.getLsbD r.val

/-- The first pending host action is a command whose word has this verdict. -/
def DeliversCommand (s : State) (i : Instr) : Prop :=
  ∃ w, s.pending.head? = some (.write .bits32 0x00 w) ∧ verdict w = .command i

/-- The first pending host action is a completed write of a word at this offset. -/
def DeliversWrite (s : State) (off : Offset) : Prop :=
  ∃ w, s.pending.head? = some (.write .bits32 off w)

/-- What each command reads of the state, 10_state.md R48 Table W: the two states hold the same there. -/
def SameInputs (i : Instr) (s s' : State) : Prop :=
  match i with
  | .nop => True
  | .clear => True
  | .clrerr => True
  | .pack _ => s.lon = s'.lon ∧ s.lat = s'.lat
  | .map len => ∀ k : Fin 12, k.val < len.toNat → s.sym[k] = s'.sym[k]
  | .encode _ => s.lon = s'.lon ∧ s.lat = s'.lat
  | .lookup len => ∀ k : Fin 12, k.val < len.toNat → s.ch[k] = s'.ch[k]
  | .unpack len => ∀ k : Fin 12, k.val < len.toNat → s.sym[k] = s'.sym[k]
  | .decode len => ∀ k : Fin 12, k.val < len.toNat → s.ch[k] = s'.ch[k]

/-- What each command writes of the data state on success, 10_state.md R48 Table W: the two states hold the same
there. -/
def SameOutputs (i : Instr) (t t' : State) : Prop :=
  match i with
  | .nop => True
  | .clear => t.lon = t'.lon ∧ t.lat = t'.lat ∧ t.sym = t'.sym ∧ t.ch = t'.ch ∧ t.nbits = t'.nbits
  | .clrerr => t.status.serr = t'.status.serr
  | .pack _ => t.sym = t'.sym ∧ t.nbits = t'.nbits
  | .map _ => t.ch = t'.ch ∧ t.nbits = t'.nbits
  | .encode _ => t.sym = t'.sym ∧ t.ch = t'.ch ∧ t.nbits = t'.nbits
  | .lookup _ => t.sym = t'.sym ∧ t.nbits = t'.nbits
  | .unpack _ => t.lon = t'.lon ∧ t.lat = t'.lat ∧ t.nbits = t'.nbits
  | .decode _ => t.lon = t'.lon ∧ t.lat = t'.lat ∧ t.sym = t'.sym ∧ t.nbits = t'.nbits

/-- What each command leaves as it was, 10_state.md R48 Table W. -/
def Untouched (i : Instr) (s t : State) : Prop :=
  match i with
  | .nop => t.lon = s.lon ∧ t.lat = s.lat ∧ t.sym = s.sym ∧ t.ch = s.ch ∧ t.nbits = s.nbits
  | .clear => True
  | .clrerr => t.lon = s.lon ∧ t.lat = s.lat ∧ t.sym = s.sym ∧ t.ch = s.ch ∧ t.nbits = s.nbits
  | .pack _ => t.lon = s.lon ∧ t.lat = s.lat ∧ t.ch = s.ch
  | .map _ => t.lon = s.lon ∧ t.lat = s.lat ∧ t.sym = s.sym
  | .encode _ => t.lon = s.lon ∧ t.lat = s.lat
  | .lookup _ => t.lon = s.lon ∧ t.lat = s.lat ∧ t.ch = s.ch
  | .unpack _ => t.sym = s.sym ∧ t.ch = s.ch
  | .decode _ => t.ch = s.ch

end Sys2Proof.Machine
end

