-- ==== Sys2Proof/Certificates/Slice0/Obligations.lean ====
section
/-! DEFINITION. The statements for the provers, from the numbered rules of spec/. OBLIGATIONS.json lists them.
In every statement about `step`, the queue `pending` and the field `response` are the model's own (logs 1 and 2): they
render the host action and its response (00_scope.md R11), and no rule is cited for what is said of the queue. -/

open Sys2Proof Sys2Proof.Machine

/-! ## Encoding -/

/-- Words written out from 30_encoding.md R101 Table F and R104 Table O, one for each command. -/
def Obligations.SampleWordsDecode : Prop :=
  decode 0b00000000000000000000000000000000#32 = .ok .nop ∧
  decode 0b00000000000000000000000000000001#32 = .ok .clear ∧
  decode 0b00000000000000000000000000000010#32 = .ok .clrerr ∧
  decode 0b00000000000000000000110000000101#32 = .ok (.pack 12) ∧
  decode 0b00000000000000000000000100000110#32 = .ok (.map 1) ∧
  decode 0b00000000000000000000100100000111#32 = .ok (.encode 9) ∧
  decode 0b00000000000000000000010100001001#32 = .ok (.lookup 5) ∧
  decode 0b00000000000000000000101100001010#32 = .ok (.unpack 11) ∧
  decode 0b00000000000000000000101000001011#32 = .ok (.decode 10)

/-- Every command, with every value of its operand field, decodes from its own word, and the verdict on the word of a
well-formed command is that command (30_encoding.md R103, R104, R106). -/
def Obligations.DecodeOfEncodeIsIdentity : Prop :=
  ∀ i : Instr, decode (encode i) = .ok i ∧ (i.wellFormed = true → verdict (encode i) = .command i)

/-- A word that decodes to a command is that command's word: no bit of a word is ignored (30_encoding.md R104, R107). -/
def Obligations.EncodeOfDecodeIsIdentity : Prop :=
  ∀ (w : Word) (i : Instr), decode w = .ok i → encode i = w

/-- 30_encoding.md R105: exactly 75 words pass steps 1 to 4, the three control words and `(P << 8) | op` for the six
data operations and `P` in 1..12; every other word, given to `CMD`, ends in InvalidPrecision or IllegalCommand. -/
def Obligations.LegalWordsAreSeventyFive : Prop :=
  ∃ legal : List Word, legal.length = 75 ∧ legal.Nodup ∧
    (∀ w, w ∈ legal ↔ ∃ i, verdict w = .command i) ∧
    (∀ w, w ∈ legal ↔ (w = 0x00000000#32 ∨ w = 0x00000001#32 ∨ w = 0x00000002#32 ∨
      ∃ p op : Nat, 1 ≤ p ∧ p ≤ 12 ∧ op ∈ [0x5, 0x6, 0x7, 0x9, 0xA, 0xB] ∧ w = BitVec.ofNat 32 (p * 256 + op))) ∧
    (∀ (w : Word) (s : State), w ∉ legal →
      ∃ t, runWord s w = .next t ∧ (t.status.err = 2#3 ∨ t.status.err = 3#3))

/-! ## Faults the word alone decides -/

/-- 60_exceptions.md R183 with the report of R185: a write to `CMD` of a word with a reserved bit set, a reserved `op`,
or a control `op` with `len` not 0 sets `ERR` = 3, `SERR` = 1, `EIDX` = 0, `ECH` = 0 and changes nothing else. -/
def Obligations.IllegalCommandIsReported : Prop :=
  ∀ (s : State) (w : Word) (rest : List HostAction),
    s.pending = .write .bits32 0x00 w :: rest →
    (w.extractLsb' 12 20 ≠ 0 ∨ w.extractLsb' 4 4 ≠ 0 ∨
      w.extractLsb' 0 4 ∈ [0b0011#4, 0b0100#4, 0b1000#4, 0b1100#4, 0b1101#4, 0b1110#4, 0b1111#4] ∨
      (w.extractLsb' 0 4 ∈ [0b0000#4, 0b0001#4, 0b0010#4] ∧ w.extractLsb' 8 4 ≠ 0)) →
    step s = .next { s with
      pending := rest, response := some .done, status := ⟨3#3, true, 0#4, 0x00#8⟩ }

/-- 60_exceptions.md R182 with the report of R185: a write to `CMD` of a data command's word with `len` 0 or above 12
(reserved bits clear) sets `ERR` = 2, `SERR` = 1, `EIDX` = 0, `ECH` = 0 and changes nothing else, whatever `CH` holds. -/
def Obligations.InvalidPrecisionIsReported : Prop :=
  ∀ (s : State) (w : Word) (rest : List HostAction),
    s.pending = .write .bits32 0x00 w :: rest →
    w.extractLsb' 12 20 = 0 → w.extractLsb' 4 4 = 0 →
    w.extractLsb' 0 4 ∈ [0b0101#4, 0b0110#4, 0b0111#4, 0b1001#4, 0b1010#4, 0b1011#4] →
    w.extractLsb' 8 4 ∈ [0#4, 13#4, 14#4, 15#4] →
    step s = .next { s with
      pending := rest, response := some .done, status := ⟨2#3, true, 0#4, 0x00#8⟩ }

/-! ## The step and the register window -/

/-- A step whose host action is a write to `CMD` of a word that decodes to a command is that command, run on the state
with the action taken from the queue and answered as completed (30_encoding.md R100; the queue and the response are
the model's own, logs 1 and 2). -/
def Obligations.StepRunsDecodedCommand : Prop :=
  ∀ (s : State) (w : Word) (rest : List HostAction) (i : Instr),
    s.pending = .write .bits32 0x00 w :: rest → decode w = .ok i →
    step s = exec i { s with pending := rest, response := some .done }

/-- 00_scope.md R10 and 70_reset_and_hazards.md R228: from every state, whatever the hosts do next, the machine
answers a next state; and it takes exactly the first host action from the queue. -/
def Obligations.StepAlwaysAnswers : Prop :=
  ∀ s : State, ∃ t, step s = .next t ∧ t.pending = s.pending.tail

/-- 20_memory.md R74, R77, R78: an access that is not 32 bits wide, is not at a multiple of 4, or is at a reserved
offset is answered with a bus error and changes no state of GHIL. -/
def Obligations.RefusedAccessChangesNothing : Prop :=
  ∀ (s : State) (size : AccessSize) (off : Offset) (w : Word) (rest : List HostAction),
    (s.pending = .read size off :: rest ∨ s.pending = .write size off w :: rest) →
    (size ≠ .bits32 ∨ off.val % 4 ≠ 0 ∨ off.val ∈ [0x14, 0x18, 0x1C, 0x2C, 0x3C]) →
    step s = .next { s with pending := rest, response := some .busError }

/-- 20_memory.md R75 (with the packing of R72): what a 32-bit read at each offset that is a multiple of 4 returns, and
that it changes no state of GHIL. -/
def Obligations.BusReadReturnsRegister : Prop :=
  ∀ (s : State) (off : Offset) (rest : List HostAction),
    s.pending = .read .bits32 off :: rest → off.val % 4 = 0 →
    (off.val ∈ [0x14, 0x18, 0x1C, 0x2C, 0x3C] →
      step s = .next { s with pending := rest, response := some .busError }) ∧
    (off.val ∉ [0x14, 0x18, 0x1C, 0x2C, 0x3C] →
      ∃ w : Word, step s = .next { s with pending := rest, response := some (.word w) } ∧
        (off.val = 0x00 → w = 0x00000000#32) ∧
        (off.val = 0x04 → w.extractLsb' 0 3 = s.status.err ∧ w.getLsbD 3 = s.status.serr ∧
          w.extractLsb' 4 4 = s.status.eidx ∧ w.extractLsb' 8 8 = s.status.ech ∧ w.extractLsb' 16 16 = 0) ∧
        (off.val = 0x08 → w = s.lon) ∧
        (off.val = 0x0C → w = s.lat) ∧
        (off.val = 0x10 → w.extractLsb' 0 6 = s.nbits.nlon ∧ w.extractLsb' 6 2 = 0 ∧
          w.extractLsb' 8 6 = s.nbits.nlat ∧ w.extractLsb' 14 2 = 0 ∧ w.extractLsb' 16 4 = s.nbits.len ∧
          w.extractLsb' 20 12 = 0) ∧
        (∀ (n : Fin 3) (b : Fin 4) (k : Fin 12), off.val = 0x20 + 4 * n.val → k.val = 4 * n.val + b.val →
          w.extractLsb' (8 * b.val) 8 = s.ch[k]) ∧
        (∀ (n : Fin 3) (b : Fin 4) (k : Fin 12), off.val = 0x30 + 4 * n.val → k.val = 4 * n.val + b.val →
          w.extractLsb' (8 * b.val) 5 = s.sym[k] ∧ w.extractLsb' (8 * b.val + 5) 3 = 0))

/-- 20_memory.md R76: what a 32-bit write at each offset that is a multiple of 4 does, and that it changes nothing
else. -/
def Obligations.BusWriteTakesEffect : Prop :=
  ∀ (s : State) (off : Offset) (w : Word) (rest : List HostAction) (s₀ : State),
    s.pending = .write .bits32 off w :: rest → off.val % 4 = 0 →
    s₀ = { s with pending := rest, response := some .done } →
    (off.val = 0x00 → ∀ i, decode w = .ok i → step s = exec i s₀) ∧
    (off.val = 0x00 → ∀ e, decode w = .error e →
      step s = .next { s₀ with status := ⟨3#3, true, 0#4, 0x00#8⟩ }) ∧
    (off.val = 0x04 ∨ off.val = 0x10 → step s = .next s₀) ∧
    (off.val = 0x08 → step s = .next { s₀ with lon := w }) ∧
    (off.val = 0x0C → step s = .next { s₀ with lat := w }) ∧
    (∀ n : Fin 3, off.val = 0x20 + 4 * n.val → ∃ ch : Cells Byte, step s = .next { s₀ with ch := ch } ∧
      ∀ k : Fin 12, ch[k] = if k.val / 4 = n.val then w.extractLsb' (8 * (k.val % 4)) 8 else s.ch[k]) ∧
    (∀ n : Fin 3, off.val = 0x30 + 4 * n.val → ∃ sym : Cells Sym, step s = .next { s₀ with sym := sym } ∧
      ∀ k : Fin 12, sym[k] = if k.val / 4 = n.val then w.extractLsb' (8 * (k.val % 4)) 5 else s.sym[k]) ∧
    (off.val ∈ [0x14, 0x18, 0x1C, 0x2C, 0x3C] →
      step s = .next { s with pending := rest, response := some .busError })

/-- 20_memory.md R80: a read that follows a write to the same data register returns the word written; of a symbol word,
its low five bits in each byte (R76). -/
def Obligations.ReadAfterWriteReturnsWord : Prop :=
  ∀ (s : State) (r : Reg) (w : Word) (rest : List HostAction),
    s.pending = .write .bits32 (offsetOf r) w :: .read .bits32 (offsetOf r) :: rest →
    ∃ t u, step s = .next t ∧ step t = .next u ∧ u.pending = rest ∧
      ((r = .lon ∨ r = .lat ∨ ∃ n, r = .chw n) → u.response = some (.word w)) ∧
      ((∃ n, r = .syw n) → u.response = some (.word (w &&& 0x1F1F1F1F#32)))

/-- 20_memory.md R79: repeating a write of a data register changes nothing more, and a read repeated with no write
between returns the same word. -/
def Obligations.DataAccessesAreIdempotent : Prop :=
  (∀ (s t u : State) (r : Reg) (w : Word) (rest : List HostAction), r ≠ .cmd →
    s.pending = .write .bits32 (offsetOf r) w :: .write .bits32 (offsetOf r) w :: rest →
    step s = .next t → step t = .next u → u = { t with pending := rest }) ∧
  (∀ (s t u : State) (size : AccessSize) (off : Offset) (rest : List HostAction),
    s.pending = .read size off :: .read size off :: rest →
    step s = .next t → step t = .next u → u = { t with pending := rest })

/-! ## The commands, each completing -/

/-- 42_control.md R170: NOP overwrites the previous report and nothing else. -/
def Obligations.NopClearsReportOnly : Prop :=
  encode .nop = 0x00000000#32 ∧
  ∀ s : State, exec .nop s = .next { s with status := ⟨0#3, s.status.serr, 0#4, 0x00#8⟩ }

/-- 42_control.md R171: CLEAR zeroes the lanes, both buffers, `NBITS` and the report, and keeps `SERR`; with CLRERR
before or after it, it gives exactly the reset state (the model's own two fields apart). -/
def Obligations.ClearZeroesDataState : Prop :=
  encode .clear = 0x00000001#32 ∧
  ∀ s : State, (∃ t, exec .clear s = .next t ∧ t.lon = 0 ∧ t.lat = 0 ∧
    (∀ k : Fin 12, t.sym[k] = 0#5 ∧ t.ch[k] = 0x00#8) ∧ t.nbits = ⟨0, 0, 0⟩ ∧ ReportCleared s t ∧
      t.pending = s.pending ∧ t.response = s.response) ∧
    (∀ t t', exec .clear s = .next t → exec .clrerr s = .next t' →
      exec .clrerr t = .next { State.reset with pending := s.pending, response := s.response } ∧
      exec .clear t' = .next { State.reset with pending := s.pending, response := s.response })

/-- 42_control.md R172: CLRERR clears all four fields of `STATUS` and nothing else; it is the only command that clears
`SERR`, and no other write clears it; a malformed CLRERR is an IllegalCommand that sets `SERR`. -/
def Obligations.ClrerrAcknowledges : Prop :=
  encode .clrerr = 0x00000002#32 ∧
  (∀ s : State, exec .clrerr s = .next { s with status := ⟨0#3, false, 0#4, 0x00#8⟩ }) ∧
  (∀ (s t : State) (r : Reg) (w : Word), writeReg s w r = .next t → s.status.serr = true → t.status.serr = false →
    r = .cmd ∧ w = 0x00000002#32) ∧
  (∀ (s : State) (len : BitVec 4), len ≠ 0#4 →
    runWord s (len.setWidth 32 <<< 8 ||| 0x02#32) = .next { s with status := ⟨3#3, true, 0#4, 0x00#8⟩ })

/-- 40_encode_path.md R131: PACK. -/
def Obligations.PackInterleavesLanes : Prop :=
  (∀ len : BitVec 4, encode (.pack len) = len.setWidth 32 <<< 8 ||| 0x05#32) ∧
  ∀ (len : BitVec 4) (s : State), Legal len →
    ∃ t, exec (.pack len) s = .next t ∧ SymbolsOfLanes s.lon s.lat len.toNat t.sym ∧
      DataSuccess len.toNat s t ∧ t.lon = s.lon ∧ t.lat = s.lat ∧ t.ch = s.ch

/-- 40_encode_path.md R133: MAP. -/
def Obligations.MapWritesCharacters : Prop :=
  (∀ len : BitVec 4, encode (.map len) = len.setWidth 32 <<< 8 ||| 0x06#32) ∧
  ∀ (len : BitVec 4) (s : State), Legal len →
    ∃ t, exec (.map len) s = .next t ∧ CharsOfSymbols s.sym len.toNat t.ch ∧
      DataSuccess len.toNat s t ∧ t.lon = s.lon ∧ t.lat = s.lat ∧ t.sym = s.sym

/-- 40_encode_path.md R135: ENCODE, the characters being those of the NEW symbols. -/
def Obligations.EncodeWritesString : Prop :=
  (∀ len : BitVec 4, encode (.encode len) = len.setWidth 32 <<< 8 ||| 0x07#32) ∧
  ∀ (len : BitVec 4) (s : State), Legal len →
    ∃ t, exec (.encode len) s = .next t ∧ SymbolsOfLanes s.lon s.lat len.toNat t.sym ∧
      CharsOfSymbols t.sym len.toNat t.ch ∧ DataSuccess len.toNat s t ∧ t.lon = s.lon ∧ t.lat = s.lat

/-- 41_decode_path.md R151: LOOKUP succeeds on a valid string, and on another one reports the least offending index
and writes nothing else. -/
def Obligations.LookupRecoversSymbols : Prop :=
  (∀ len : BitVec 4, encode (.lookup len) = len.setWidth 32 <<< 8 ||| 0x09#32) ∧
  (∀ (len : BitVec 4) (s : State), Legal len → ValidCells s.ch len.toNat →
    ∃ t, exec (.lookup len) s = .next t ∧ SymbolsOfChars s.ch len.toNat t.sym ∧
      DataSuccess len.toNat s t ∧ t.lon = s.lon ∧ t.lat = s.lat ∧ t.ch = s.ch) ∧
  (∀ (len : BitVec 4) (s : State) (k : Fin 12), Legal len → FirstBad s.ch len.toNat k →
    exec (.lookup len) s = .next { s with status := ⟨1#3, true, BitVec.ofNat 4 k.val, s.ch[k]⟩ })

/-- 41_decode_path.md R153: UNPACK. -/
def Obligations.UnpackSplitsStream : Prop :=
  (∀ len : BitVec 4, encode (.unpack len) = len.setWidth 32 <<< 8 ||| 0x0A#32) ∧
  ∀ (len : BitVec 4) (s : State), Legal len →
    ∃ t, exec (.unpack len) s = .next t ∧ LanesOfSymbols s.sym len.toNat t.lon t.lat ∧
      DataSuccess len.toNat s t ∧ t.sym = s.sym ∧ t.ch = s.ch

/-- 41_decode_path.md R156: DECODE succeeds on a valid string, the lanes being those of the NEW symbols, and on another
one reports the least offending index and writes nothing else. -/
def Obligations.DecodeRecoversLanes : Prop :=
  (∀ len : BitVec 4, encode (.decode len) = len.setWidth 32 <<< 8 ||| 0x0B#32) ∧
  (∀ (len : BitVec 4) (s : State), Legal len → ValidCells s.ch len.toNat →
    ∃ t, exec (.decode len) s = .next t ∧ SymbolsOfChars s.ch len.toNat t.sym ∧
      LanesOfSymbols t.sym len.toNat t.lon t.lat ∧ DataSuccess len.toNat s t ∧ t.ch = s.ch) ∧
  (∀ (len : BitVec 4) (s : State) (k : Fin 12), Legal len → FirstBad s.ch len.toNat k →
    exec (.decode len) s = .next { s with status := ⟨1#3, true, BitVec.ofNat 4 k.val, s.ch[k]⟩ })

/-- 60_exceptions.md R181: whenever some cell below `P` is outside the alphabet, LOOKUP and DECODE report it: the
smallest such index in `EIDX`, its value in `ECH`, and no symbol and no lane bit written. -/
def Obligations.InvalidCharacterIsReported : Prop :=
  ∀ (len : BitVec 4) (s : State) (i : Instr), Legal len → (i = .lookup len ∨ i = .decode len) →
    (∃ k : Fin 12, k.val < len.toNat ∧ ¬ InAlphabet s.ch[k]) →
    ∃ k : Fin 12, FirstBad s.ch len.toNat k ∧
      exec i s = .next { s with status := ⟨1#3, true, BitVec.ofNat 4 k.val, s.ch[k]⟩ }

/-- 41_decode_path.md R159: LOOKUP and DECODE succeed exactly on the strings over the alphabet. -/
def Obligations.RejectionIsExact : Prop :=
  ∀ (len : BitVec 4) (s : State) (i : Instr), Legal len → (i = .lookup len ∨ i = .decode len) →
    ∃ t, exec i s = .next t ∧ (t.status.err = 0#3 ↔ ValidCells s.ch len.toNat)

/-! ## Frames, faults and the sticky bit -/

/-- 10_state.md R48 Table W: what each command leaves as it was, whether it succeeds or faults, for every value of its
operand field; `SERR` is lost by CLRERR only. -/
def Obligations.CommandsWriteOnlyTheirOutputs : Prop :=
  ∀ (i : Instr) (s t : State), exec i s = .next t →
    Untouched i s t ∧ t.pending = s.pending ∧ t.response = s.response ∧
    (i ≠ .clrerr → s.status.serr = true → t.status.serr = true)

/-- 60_exceptions.md R186 with the codes of R180: a command that ends with `ERR` not 0 has changed no state but the four
fields of `STATUS`, has set `SERR`, and has left one of the codes 1 to 3. -/
def Obligations.FaultsArePrecise : Prop :=
  ∀ (s t : State) (w : Word), runWord s w = .next t → t.status.err ≠ 0#3 →
    t = { s with status := t.status } ∧ t.status.serr = true ∧
    (t.status.err = 1#3 ∨ t.status.err = 2#3 ∨ t.status.err = 3#3)

/-- 10_state.md R45 Table S: after any command word, `SERR` is 0 if the word is CLRERR's, and else is 1 exactly when it
was 1 or the command faulted. -/
def Obligations.SerrTracksFaults : Prop :=
  ∀ (s t : State) (w : Word), runWord s w = .next t →
    t.status.serr = (if w = 0x00000002#32 then false else (s.status.serr || decide (t.status.err ≠ 0#3)))

/-- 42_control.md R172 (1), 60_exceptions.md R189: over all host actions, only CLRERR and RESET clear `SERR`. -/
def Obligations.OnlyClrerrAndResetClearSerr : Prop :=
  ∀ s t : State, step s = .next t → s.status.serr = true → t.status.serr = false →
    DeliversCommand s .clrerr ∨ s.pending.head? = some .reset

/-- Over all host actions, which of them can change each element of the architectural state (10_state.md R45, R46, R48,
R49; 20_memory.md R76, R79; 70_reset_and_hazards.md R210). -/
def Obligations.StateElementsHaveTheirWriters : Prop :=
  ∀ s t : State, step s = .next t →
    (s.pending = [] → t = s) ∧
    (t.lon ≠ s.lon → s.pending.head? = some .reset ∨ DeliversWrite s 0x08 ∨ DeliversCommand s .clear ∨
      ∃ len, DeliversCommand s (.unpack len) ∨ DeliversCommand s (.decode len)) ∧
    (t.lat ≠ s.lat → s.pending.head? = some .reset ∨ DeliversWrite s 0x0C ∨ DeliversCommand s .clear ∨
      ∃ len, DeliversCommand s (.unpack len) ∨ DeliversCommand s (.decode len)) ∧
    (t.sym ≠ s.sym → s.pending.head? = some .reset ∨ DeliversWrite s 0x30 ∨ DeliversWrite s 0x34 ∨
      DeliversWrite s 0x38 ∨ DeliversCommand s .clear ∨
      ∃ len, DeliversCommand s (.pack len) ∨ DeliversCommand s (.encode len) ∨ DeliversCommand s (.lookup len) ∨
        DeliversCommand s (.decode len)) ∧
    (t.ch ≠ s.ch → s.pending.head? = some .reset ∨ DeliversWrite s 0x20 ∨ DeliversWrite s 0x24 ∨
      DeliversWrite s 0x28 ∨ DeliversCommand s .clear ∨
      ∃ len, DeliversCommand s (.map len) ∨ DeliversCommand s (.encode len)) ∧
    (t.nbits ≠ s.nbits → s.pending.head? = some .reset ∨
      ∃ i, i ≠ .nop ∧ i ≠ .clrerr ∧ DeliversCommand s i) ∧
    (t.status ≠ s.status → s.pending.head? = some .reset ∨ DeliversWrite s 0x00)

/-! ## What results depend on -/

/-- 70_reset_and_hazards.md R222 and 10_state.md R48: from two states that agree on what a well-formed command reads
and may differ in everything else (`STATUS` among it: 60_exceptions.md R188), the command reports the same, and when it
succeeds everything it writes is the same. -/
def Obligations.ResultsDependOnInputsOnly : Prop :=
  ∀ (i : Instr) (s s' : State), i.wellFormed = true → SameInputs i s s' →
    ∃ t t', exec i s = .next t ∧ exec i s' = .next t' ∧
      t.status.err = t'.status.err ∧ t.status.eidx = t'.status.eidx ∧ t.status.ech = t'.status.ech ∧
      (t.status.err = 0#3 → SameOutputs i t t')

/-- 40_encode_path.md R134: MAP is element-wise. -/
def Obligations.MapIsElementwise : Prop :=
  ∀ (len : BitVec 4) (s s' : State) (k : Fin 12), Legal len →
    ∃ t t', exec (.map len) s = .next t ∧ exec (.map len) s' = .next t' ∧
      (k.val < len.toNat → s.sym[k] = s'.sym[k] → t.ch[k] = t'.ch[k]) ∧
      (len.toNat ≤ k.val → t.ch[k] = 0x00#8)

/-- 41_decode_path.md R152: LOOKUP is element-wise with a collective validity check; the reported index is the minimum
over the invalid ones. -/
def Obligations.LookupIsElementwise : Prop :=
  ∀ (len : BitVec 4) (s : State), Legal len →
    ∃ t, exec (.lookup len) s = .next t ∧
      (t.status.err = 0#3 ↔ ValidCells s.ch len.toNat) ∧
      (t.status.err ≠ 0#3 → ∃ k : Fin 12, FirstBad s.ch len.toNat k ∧ t.status.eidx.toNat = k.val) ∧
      (t.status.err = 0#3 → ∀ (s' t' : State), exec (.lookup len) s' = .next t' → t'.status.err = 0#3 →
        ∀ k : Fin 12, (k.val < len.toNat → s.ch[k] = s'.ch[k] → t.sym[k] = t'.sym[k]) ∧
          (len.toNat ≤ k.val → t.sym[k] = 0#5))

/-! ## Composition and round trips -/

/-- 40_encode_path.md R136: from any state, PACK then MAP and ENCODE leave the same state. -/
def Obligations.PackThenMapIsEncode : Prop :=
  ∀ (len : BitVec 4) (s : State),
    ∃ t u, exec (.pack len) s = .next t ∧ exec (.map len) t = .next u ∧ exec (.encode len) s = .next u

/-- 41_decode_path.md R157: from any state, LOOKUP then UNPACK, run to the first fault, and DECODE leave the same
state. -/
def Obligations.LookupThenUnpackIsDecode : Prop :=
  ∀ (len : BitVec 4) (s : State),
    ∃ t, exec (.lookup len) s = .next t ∧
      (t.status.err ≠ 0#3 → exec (.decode len) s = .next t) ∧
      (t.status.err = 0#3 → ∃ u, exec (.unpack len) t = .next u ∧ exec (.decode len) s = .next u)

/-- 41_decode_path.md R158 (a): ENCODE after a successful DECODE reproduces the string. -/
def Obligations.EncodeAfterDecodeReproducesString : Prop :=
  ∀ (len : BitVec 4) (s t : State), Legal len → exec (.decode len) s = .next t → t.status.err = 0#3 →
    ∃ u, exec (.encode len) t = .next u ∧
      ∀ k : Fin 12, (k.val < len.toNat → u.ch[k] = s.ch[k]) ∧ (len.toNat ≤ k.val → u.ch[k] = 0x00#8)

/-- 41_decode_path.md R158 (b): DECODE after ENCODE succeeds, reproduces the used bits of the lanes and zeroes the
others. -/
def Obligations.DecodeAfterEncodeReproducesLanes : Prop :=
  ∀ (len : BitVec 4) (s t : State), Legal len → exec (.encode len) s = .next t →
    ∃ u, exec (.decode len) t = .next u ∧ u.status.err = 0#3 ∧
      TopBits ((5 * len.toNat + 1) / 2) s.lon u.lon ∧ TopBits (5 * len.toNat / 2) s.lat u.lat

/-- 41_decode_path.md R158 (c), (d): each stage and its inverse. -/
def Obligations.StagesInvertEachOther : Prop :=
  ∀ (len : BitVec 4) (s t : State), Legal len →
    (exec (.pack len) s = .next t → ∃ u, exec (.unpack len) t = .next u ∧
      TopBits ((5 * len.toNat + 1) / 2) s.lon u.lon ∧ TopBits (5 * len.toNat / 2) s.lat u.lat) ∧
    (exec (.unpack len) s = .next t → ∃ u, exec (.pack len) t = .next u ∧
      ∀ k : Fin 12, k.val < len.toNat → u.sym[k] = s.sym[k]) ∧
    (exec (.map len) s = .next t → ∃ u, exec (.lookup len) t = .next u ∧ u.status.err = 0#3 ∧
      ∀ k : Fin 12, k.val < len.toNat → u.sym[k] = s.sym[k]) ∧
    (exec (.lookup len) s = .next t → t.status.err = 0#3 → ∃ u, exec (.map len) t = .next u ∧
      ∀ k : Fin 12, k.val < len.toNat → u.ch[k] = s.ch[k])

/-- 40_encode_path.md R137 (a), (b): after ENCODE or MAP exactly the first `P` cells are characters of the alphabet. -/
def Obligations.OutputIsOverTheAlphabet : Prop :=
  ∀ (len : BitVec 4) (s : State) (i : Instr), Legal len → (i = .map len ∨ i = .encode len) →
    ∃ t, exec i s = .next t ∧ ∀ k : Fin 12, InAlphabet t.ch[k] ↔ k.val < len.toNat

/-- 40_encode_path.md R137 (c): the string of a smaller precision is a prefix. -/
def Obligations.EncodeHasPrefixProperty : Prop :=
  ∀ (len len' : BitVec 4) (s : State), Legal len → Legal len' → len'.toNat < len.toNat →
    ∃ t t', exec (.encode len) s = .next t ∧ exec (.encode len') s = .next t' ∧
      ∀ k : Fin 12, k.val < len'.toNat → t'.ch[k] = t.ch[k]

/-- 40_encode_path.md R137 (d), (e): two lane pairs give the same string exactly when they agree on the used bits. -/
def Obligations.StringDeterminesUsedBits : Prop :=
  ∀ (len : BitVec 4) (s s' : State), Legal len →
    ∃ t t', exec (.encode len) s = .next t ∧ exec (.encode len) s' = .next t' ∧
      (t.ch = t'.ch ↔
        SameTopBits ((5 * len.toNat + 1) / 2) s.lon s'.lon ∧ SameTopBits (5 * len.toNat / 2) s.lat s'.lat)

/-- 10_state.md R37, over the alphabet as printed (R34 to R36): `ALPHA` is injective, `INV` is its exact inverse and
answers `invalid` exactly outside the alphabet, exactly 32 cell values are valid, and 0x00 is none of them. -/
def Obligations.InverseTableIsExact : Prop :=
  (∀ σ : Sym, IsCodeOf (alpha σ) σ) ∧
  (∀ σ τ : Sym, alpha σ = alpha τ → σ = τ) ∧
  (∀ σ : Sym, inv (alpha σ) = some σ) ∧
  (∀ (x : Byte) (σ : Sym), inv x = some σ → alpha σ = x) ∧
  (∀ x : Byte, inv x = none ↔ ¬ InAlphabet x) ∧
  (∃ valid : List Byte, valid.length = 32 ∧ valid.Nodup ∧ ∀ x, x ∈ valid ↔ ∃ σ, inv x = some σ) ∧
  inv 0x00#8 = none

/-! ## Bit-serial readings -/

/-- 40_encode_path.md R132: the sequential loop leaves in the first `P` cells what PACK writes there, whatever the
buffer held, and ends with the counters the rule gives. -/
def Obligations.SerialPackEqualsClosedForm : Prop :=
  ∀ (lon lat : Word) (before : Cells Sym) (p : Nat), p ≤ 12 →
    (∀ k : Fin 12, (packSerial lon lat before p).sym[k] =
      if k.val < p then (packSyms lon lat p)[k] else before[k]) ∧
    (packSerial lon lat before p).k = p ∧
    (packSerial lon lat before p).jlon = (5 * p + 1) / 2 ∧
    (packSerial lon lat before p).jlat = 5 * p / 2

/-- 41_decode_path.md R154: the sequential loops leave the lanes UNPACK writes and end with the counters the rule
gives. -/
def Obligations.SerialUnpackEqualsClosedForm : Prop :=
  ∀ (sym : Cells Sym) (p : Nat), p ≤ 12 →
    unpackSerial sym p =
      ⟨unpackLane .longitude sym p, unpackLane .latitude sym p, (5 * p + 1) / 2, 5 * p / 2, 5 * p⟩

/-! ## Reset and the invariant -/

/-- 10_state.md R62, 70_reset_and_hazards.md R210: RESET, from any state, makes every bit of the architectural state 0,
and so is the state the machine starts from. That a reset leaves the rest of the queue and gives no response is the
model's choice (logs 1 and 2). -/
def Obligations.ResetZeroesState : Prop :=
  (∀ (s : State) (rest : List HostAction), s.pending = .reset :: rest →
    ∃ t, step s = .next t ∧ t.lon = 0 ∧ t.lat = 0 ∧ (∀ k : Fin 12, t.sym[k] = 0#5 ∧ t.ch[k] = 0x00#8) ∧
      t.status = ⟨0#3, false, 0#4, 0x00#8⟩ ∧ t.nbits = ⟨0, 0, 0⟩ ∧ t.pending = rest ∧ t.response = none) ∧
  State.reset.lon = 0 ∧ State.reset.lat = 0 ∧ (∀ k : Fin 12, State.reset.sym[k] = 0#5 ∧ State.reset.ch[k] = 0x00#8) ∧
  State.reset.status = ⟨0#3, false, 0#4, 0x00#8⟩ ∧ State.reset.nbits = ⟨0, 0, 0⟩

/-- The read-only registers hold only what the spec says can appear in them, and every step keeps it, from every state
that has it (10_state.md Tables S and N, 60_exceptions.md R180, R185, 93 V4). -/
def Obligations.StepKeepsReportAndCountsLegal : Prop :=
  ∀ s t : State, s.Inv → step s = .next t → t.Inv

/-- The reset state has the invariant (10_state.md R62). -/
def Obligations.ResetHasLegalReportAndCounts : Prop := State.reset.Inv

/-! ## The driver -/

/-- 30_encoding.md R116, `GH.ENCODE`: delivered as the next four host actions, from any state, it ends with a `STATUS`
word whose `ERR` is 0, the string of the lanes in `CH`, and the rest of the queue still to come. -/
def Obligations.GhEncodeScriptProducesString : Prop :=
  ∀ (s : State) (lon lat : Word) (len : BitVec 4) (rest : List HostAction), Legal len →
    s.pending = ghEncode lon lat len ++ rest →
    ∃ s₁ s₂ s₃ t w, step s = .next s₁ ∧ step s₁ = .next s₂ ∧ step s₂ = .next s₃ ∧ step s₃ = .next t ∧
      t.pending = rest ∧ t.response = some (.word w) ∧ w.extractLsb' 0 3 = 0 ∧ t.lon = lon ∧ t.lat = lat ∧
      SymbolsOfLanes lon lat len.toNat t.sym ∧ CharsOfSymbols t.sym len.toNat t.ch

/-- 30_encoding.md R116, `GH.ENCODE` whole, from any state: with a legal precision it ends with the string of the lanes
in `CH` and gives its caller the first `P` cells; with any other it gives the `STATUS` word with `ERR` = 2 (the model's
choice of what to give, log 5) and has changed no buffer. What else is pending stays. -/
def Obligations.GhEncodeGivesString : Prop :=
  ∀ (s : State) (lon lat : Word) (len : BitVec 4),
    (Legal len → ∃ t str, runGhEncode lon lat len s = some (t, .string str) ∧ str.length = len.toNat ∧
      (∀ k : Fin 12, k.val < len.toNat → str[k.val]? = some t.ch[k]) ∧ t.lon = lon ∧ t.lat = lat ∧
      SymbolsOfLanes lon lat len.toNat t.sym ∧ CharsOfSymbols t.sym len.toNat t.ch ∧ t.pending = s.pending) ∧
    (¬ Legal len → ∃ t st, runGhEncode lon lat len s = some (t, .failed st) ∧ st.extractLsb' 0 3 = 2#3 ∧
      t.lon = lon ∧ t.lat = lat ∧ t.sym = s.sym ∧ t.ch = s.ch ∧ t.nbits = s.nbits ∧ t.pending = s.pending)

/-- 30_encoding.md R116, `GH.DECODE` whole, from any state, on a string of 1 to 12 characters: over the alphabet, it
gives its caller the lanes and the counts of the string; otherwise the index and the byte of the first character outside
the alphabet, and no lane, symbol or count has changed. What else is pending stays. -/
def Obligations.GhDecodeGivesLanesOrOffender : Prop :=
  ∀ (s : State) (str : List Byte), 1 ≤ str.length → str.length ≤ 12 →
    ((∀ x ∈ str, InAlphabet x) → ∃ t nbits, runGhDecode str s = some (t, .lanes t.lon t.lat nbits) ∧
      (∀ k : Fin 12, k.val < str.length → ∃ x, str[k.val]? = some x ∧ t.ch[k] = x ∧ IsCodeOf x t.sym[k]) ∧
      LanesOfSymbols t.sym str.length t.lon t.lat ∧
      (nbits.extractLsb' 0 6).toNat = (5 * str.length + 1) / 2 ∧ (nbits.extractLsb' 8 6).toNat = 5 * str.length / 2 ∧
      (nbits.extractLsb' 16 4).toNat = str.length ∧ t.pending = s.pending) ∧
    (∀ (i : Nat) (x : Byte), str[i]? = some x → ¬ InAlphabet x → (∀ y ∈ str.take i, InAlphabet y) →
      ∃ t, runGhDecode str s = some (t, .invalidCharacter (BitVec.ofNat 4 i) x) ∧
        t.lon = s.lon ∧ t.lat = s.lat ∧ t.sym = s.sym ∧ t.nbits = s.nbits ∧ t.pending = s.pending)

/-- 00_scope.md R21, on every lane: a longitude step of `d` cells moves the cell by `d` modulo
`2^nlon(P)`; a latitude step moves it by `d` when the result stays in range and has no meaning otherwise; and a step
followed by its opposite gives back the lane (93 U6). -/
def Obligations.LaneStepsMoveCells : Prop :=
  ∀ (lane : Word) (p : Nat) (d : Int), 1 ≤ p → p ≤ 12 →
    ((cellOfLane (stepLon lane p d) (nlonOf p) : Int) = (cellOfLane lane (nlonOf p) + d) % 2 ^ nlonOf p ∧
      stepLon (stepLon lane p d) p (-d) = lane) ∧
    (∀ lane', stepLat lane p d = some lane' →
      (cellOfLane lane' (nlatOf p) : Int) = cellOfLane lane (nlatOf p) + d ∧ stepLat lane' p (-d) = some lane) ∧
    (stepLat lane p d = none ↔ ¬ (0 ≤ (cellOfLane lane (nlatOf p) : Int) + d ∧
      (cellOfLane lane (nlatOf p) : Int) + d < 2 ^ nlatOf p))

/-- 00_scope.md R18, R19: the cell of a quantised coordinate contains the coordinate, and the upper end of the range
lands in the topmost cell (R20 (c)). Two things here are the model's choice and no rule of the spec (DESIGN CHOICE,
log 5): that coordinates are exact rationals, and the last clause, that a coordinate outside the range has no lane (93 U2
leaves the policy to software, and the loop of R18 as written would saturate). -/
def Obligations.QuantisedCellContainsCoordinate : Prop :=
  ∀ (x lo hi : Rat) (n : Nat), lo < hi → n ≤ 32 →
    (lo ≤ x → x < hi → ∃ lane, quantise x lo hi n = some lane ∧
      cellLow lane lo hi n ≤ x ∧ x < cellLow lane lo hi n + cellSpan lo hi n) ∧
    (x = hi → ∃ lane, quantise x lo hi n = some lane ∧ cellOfLane lane n = 2 ^ n - 1) ∧
    (x < lo ∨ hi < x → quantise x lo hi n = none)
end

