-- ==== Sys2Proof/Laws/Decode.lean ====
section
/-! SUPPORT. The decoder: the fields of an encoded word, and what a word that decodes looks like. -/

namespace Sys2Proof

/-- A word is determined by its four fields (30_encoding.md R101 Table F). -/
theorem word_ext_fields {w v : Word} (h1 : w.extractLsb' 12 20 = v.extractLsb' 12 20) (h2 : lenField w = lenField v)
    (h3 : w.extractLsb' 4 4 = v.extractLsb' 4 4) (h4 : opField w = opField v) : w = v := by
  apply BitVec.eq_of_getLsbD_eq
  intro i hi
  have g1 := congrArg (BitVec.getLsbD · (i - 12)) h1
  have g2 := congrArg (BitVec.getLsbD · (i - 8)) h2
  have g3 := congrArg (BitVec.getLsbD · (i - 4)) h3
  have g4 := congrArg (BitVec.getLsbD · i) h4
  simp only [opField, lenField, BitVec.getLsbD_extractLsb'] at g1 g2 g3 g4
  by_cases c1 : i < 4
  · simpa [c1] using g4
  · by_cases c2 : i < 8
    · simpa [show i - 4 < 4 by omega, show 4 + (i - 4) = i by omega] using g3
    · by_cases c3 : i < 12
      · simpa [show i - 8 < 4 by omega, show 8 + (i - 8) = i by omega] using g2
      · simpa [show i - 12 < 20 by omega, show 12 + (i - 12) = i by omega] using g1

theorem reservedClear_iff (w : Word) : reservedClear w = true ↔ w.extractLsb' 12 20 = 0#20 ∧ w.extractLsb' 4 4 = 0#4 := by
  simp [reservedClear]

/-- Steps 2 and 3 of 30_encoding.md R100, when they find a command. -/
theorem decodeOp_ok {op len : BitVec 4} {i : Instr} (h : decodeOp op len = .ok i) : i.op = op ∧ i.lenBits = len := by
  have key : ∀ op len : BitVec 4,
      (match decodeOp op len with
        | .ok i => decide (i.op = op ∧ i.lenBits = len)
        | .error _ => true) = true := by decide
  have := key op len
  rw [h] at this
  simpa using this

/-- Steps 2 and 3 of 30_encoding.md R100: which fields are no command. -/
theorem decodeOp_error_iff : ∀ op len : BitVec 4,
    (decodeOp op len).toOption = none ↔
      (op ∈ [0b0011#4, 0b0100#4, 0b1000#4, 0b1100#4, 0b1101#4, 0b1110#4, 0b1111#4] ∨
        (op ∈ [0b0000#4, 0b0001#4, 0b0010#4] ∧ len ≠ 0#4)) := by decide

theorem encode_fields (i : Instr) :
    opField (encode i) = i.op ∧ lenField (encode i) = i.lenBits ∧ reservedClear (encode i) = true := by
  cases i with
  | nop => decide
  | clear => decide
  | clrerr => decide
  | pack len => revert len; decide
  | map len => revert len; decide
  | encode len => revert len; decide
  | lookup len => revert len; decide
  | unpack len => revert len; decide
  | decode len => revert len; decide

end Sys2Proof
end

