-- ==== Sys2Proof/Laws/Operands.lean ====
section
/-! SUPPORT. One spec lemma per function of Machine/Operands.lean, so that proofs cite it and do not unfold the
function. -/

namespace Sys2Proof.Machine

/-! ### Buffers and bit functions -/

theorem tabulate_getElem {α : Type} (f : Fin Config.ncell → α) (k : Fin Config.ncell) :
    (tabulate f)[k] = f k := by
  fin_cases k <;> rfl

@[simp] theorem tabulate_getElem_nat {α : Type} (f : Fin Config.ncell → α) (k : Nat) (h : k < Config.ncell) :
    (tabulate f)[k] = f ⟨k, h⟩ := tabulate_getElem f ⟨k, h⟩

theorem cells_ext {α : Type} {a b : Cells α} (h : ∀ k : Fin Config.ncell, a[k] = b[k]) : a = b :=
  Vector.ext fun i hi => h ⟨i, hi⟩

theorem tabulate_const_eq_replicate {α : Type} (v : α) :
    tabulate (fun _ => v) = Vector.replicate Config.ncell v := rfl

@[simp] theorem getLsbD_bitsOf (n : Nat) (f : Nat → Bool) (i : Nat) :
    (bitsOf n f).getLsbD i = (decide (i < n) && f i) := by
  induction n with
  | zero => simp [bitsOf]
  | succ n ih =>
    rw [bitsOf, BitVec.getLsbD_cons, ih]
    by_cases h : i = n
    · simp [h]
    · simp [h, show i ≤ n ↔ i < n by omega]

/-! ### Precision -/

theorem precision?_legal {len : BitVec 4} (h : Legal len) : precision? len = some len.toNat := by
  simp [precision?, Config.pmax, h.1, h.2]

theorem precision?_cases (len : BitVec 4) :
    (Legal len ∧ precision? len = some len.toNat) ∨ (¬ Legal len ∧ precision? len = none) := by
  by_cases h : Legal len
  · exact .inl ⟨h, precision?_legal h⟩
  · exact .inr ⟨h, if_neg h⟩

theorem legalPrecision_iff (len : BitVec 4) : legalPrecision len = true ↔ Legal len := by
  simp [legalPrecision, Legal, Config.pmax]

/-! ### The stream -/

theorem axis_streamIndex (a : Axis) (j : Nat) : axis (streamIndex a j) = a := by
  cases a <;> simp [axis, streamIndex]

theorem streamIndex_laneIndex (i : Nat) : streamIndex (axis i) (laneIndex i) = i := by
  unfold axis laneIndex
  split <;> simp only [streamIndex] <;> omega

/-- 40_encode_path.md R131: the stream bit in the rule's own words. -/
theorem streamBit_eq (lon lat : Word) (i : Nat) :
    streamBit lon lat i = if i % 2 = 0 then lon.getLsbD (31 - i / 2) else lat.getLsbD (31 - i / 2) := by
  unfold streamBit axis
  split <;> rename_i h <;> split at h <;> simp_all [laneRegBit, laneIndex]

/-- 10_state.md R32: bit `4 - t` of symbol `k` is stream bit `5k + t`. -/
theorem getLsbD_symbolOf (b : Nat → Bool) (k t : Nat) (h : t < 5) :
    (symbolOf b k).getLsbD (4 - t) = b (5 * k + t) := by
  have key : ∀ b0 b1 b2 b3 b4 : Bool, ∀ s : Sym,
      s = BitVec.ofNat 5 (16 * b0.toNat + 8 * b1.toNat + 4 * b2.toNat + 2 * b3.toNat + b4.toNat) →
      s.getLsbD 4 = b0 ∧ s.getLsbD 3 = b1 ∧ s.getLsbD 2 = b2 ∧ s.getLsbD 1 = b3 ∧ s.getLsbD 0 = b4 := by
    rintro b0 b1 b2 b3 b4 _ rfl
    revert b0 b1 b2 b3 b4
    decide
  obtain ⟨h0, h1, h2, h3, h4⟩ := key _ _ _ _ _ (symbolOf b k) rfl
  interval_cases t <;> assumption

theorem getLsbD_packSyms (lon lat : Word) (p : Nat) (k : Fin 12) (t : Nat) (h : t < 5) :
    ((packSyms lon lat p)[k]).getLsbD (4 - t) = (decide (k.val < p) && streamBit lon lat (5 * k.val + t)) := by
  unfold packSyms
  rw [tabulate_getElem]
  by_cases hk : k.val < p <;> simp [hk, getLsbD_symbolOf _ _ _ h]

/-- Two symbols are equal when their five bits are. -/
theorem sym_ext {a b : Sym} (h : ∀ t, t < 5 → a.getLsbD (4 - t) = b.getLsbD (4 - t)) : a = b := by
  apply BitVec.eq_of_getLsbD_eq
  intro i hi
  have := h (4 - i) (by omega)
  rwa [show 4 - (4 - i) = i by omega] at this

theorem symBit_eq (sym : Cells Sym) (k : Fin 12) (t : Nat) (h : t < 5) :
    symBit sym (5 * k.val + t) = (sym[k]).getLsbD (4 - t) := by
  have h1 : (5 * k.val + t) / 5 = k.val := by omega
  have h2 : (5 * k.val + t) % 5 = t := by omega
  simp [symBit, h1, h2, Config.ncell]

/-- Below `5P` the stream read back from PACK's symbols is the stream of the lanes. -/
theorem symBit_packSyms (lon lat : Word) (p i : Nat) (hp : p ≤ 12) (hi : i < 5 * p) :
    symBit (packSyms lon lat p) i = streamBit lon lat i := by
  have hk : i / 5 < 12 := by omega
  have := symBit_eq (packSyms lon lat p) ⟨i / 5, hk⟩ (i % 5) (by omega)
  rw [show 5 * (i / 5) + i % 5 = i by omega] at this
  rw [this, getLsbD_packSyms _ _ _ _ _ (by omega)]
  simp [show i / 5 < p by omega, show 5 * (i / 5) + i % 5 = i by omega]

theorem getLsbD_unpackLane (a : Axis) (sym : Cells Sym) (p r : Nat) :
    (unpackLane a sym p).getLsbD r =
      (decide (r < 32) && (decide (streamIndex a (31 - r) < 5 * p) && symBit sym (streamIndex a (31 - r)))) := by
  simp [unpackLane, Config.symw]

/-- Below `5P` the stream read from UNPACK's lanes is the stream of the symbols. -/
theorem streamBit_unpackLane (sym : Cells Sym) (p i : Nat) (hp : p ≤ 12) (hi : i < 5 * p) :
    streamBit (unpackLane .longitude sym p) (unpackLane .latitude sym p) i = symBit sym i := by
  rw [streamBit_eq]
  split <;> rw [getLsbD_unpackLane] <;> simp only [streamIndex, show 31 - (31 - i / 2) = i / 2 by omega]
  · rw [show 2 * (i / 2) = i by omega]; simp [hi]; omega
  · rw [show 2 * (i / 2) + 1 = i by omega]; simp [hi]; omega

/-! ### The alphabet -/

/-- The table is the alphabet as printed, in ASCII (10_state.md R34, R35). -/
theorem alphaTable_eq : alphaTable = alphabet.map charCode := by decide

theorem mem_alphaTable_iff (c : Byte) : c ∈ alphaTable ↔ InAlphabet c := by
  rw [alphaTable_eq, List.mem_map]
  exact ⟨fun ⟨a, h, e⟩ => ⟨a, h, e.symm⟩, fun ⟨a, h, e⟩ => ⟨a, h, e.symm⟩⟩

/-- 10_state.md R37 (b). -/
theorem inv_alpha : ∀ s : Sym, inv (alpha s) = some s := by decide

/-- 10_state.md R37 (c). -/
theorem alpha_of_inv {c : Byte} {s : Sym} (h : inv c = some s) : alpha s = c := by
  have := List.find?_some h
  simpa using this

/-- 10_state.md R36: `INV(c) = s` exactly when `c` is the code of `ALPHA(s)`. -/
theorem inv_eq_some_iff {c : Byte} {s : Sym} : inv c = some s ↔ alpha s = c :=
  ⟨alpha_of_inv, fun h => h ▸ inv_alpha s⟩

theorem isCodeOf_alpha : ∀ s : Sym, IsCodeOf (alpha s) s := by unfold IsCodeOf; decide

theorem isCodeOf_iff {c : Byte} {s : Sym} : IsCodeOf c s ↔ alpha s = c := by
  have h := isCodeOf_alpha s
  unfold IsCodeOf at *
  rw [h]
  simp

theorem inAlphabet_iff {c : Byte} : InAlphabet c ↔ ∃ s, alpha s = c := by
  rw [← mem_alphaTable_iff]
  constructor
  · intro h
    have : ∀ c ∈ alphaTable, ∃ s : Sym, alpha s = c := by decide
    exact this c h
  · rintro ⟨s, rfl⟩
    revert s
    decide

theorem inv_eq_none_iff {c : Byte} : inv c = none ↔ ¬ InAlphabet c := by
  rw [inAlphabet_iff]
  constructor
  · rintro h ⟨s, hs⟩
    rw [inv_eq_some_iff.mpr hs] at h
    cases h
  · intro h
    cases hc : inv c with
    | none => rfl
    | some s => exact absurd ⟨s, alpha_of_inv hc⟩ h

/-- 10_state.md R37 (e): padding is no character. -/
theorem not_inAlphabet_zero : ¬ InAlphabet 0x00#8 := inv_eq_none_iff.mp (by decide)

theorem mapCells_getElem (sym : Cells Sym) (p : Nat) (k : Fin 12) :
    (mapCells sym p)[k] = if k.val < p then alpha sym[k] else 0x00#8 := tabulate_getElem _ _

theorem lookupSyms_getElem (ch : Cells Byte) (p : Nat) (k : Fin 12) :
    (lookupSyms ch p)[k] = if k.val < p then (inv ch[k]).getD 0#5 else 0#5 := tabulate_getElem _ _

theorem packSyms_getElem (lon lat : Word) (p : Nat) (k : Fin 12) :
    (packSyms lon lat p)[k] = if k.val < p then symbolOf (streamBit lon lat) k.val else 0#5 := tabulate_getElem _ _

/-! ### The validity check -/

theorem mem_cellIndices : ∀ k : Fin Config.ncell, k ∈ cellIndices := by decide

theorem firstInvalid_eq_none_iff (ch : Cells Byte) (p : Nat) : firstInvalid ch p = none ↔ ValidCells ch p := by
  unfold firstInvalid ValidCells
  rw [List.find?_eq_none]
  constructor
  · intro h k hk
    by_contra hn
    exact h k (mem_cellIndices k)
      (by rw [inv_eq_none_iff.mpr hn]; exact Bool.and_eq_true_iff.mpr ⟨decide_eq_true hk, rfl⟩)
  · intro h k _ hk
    simp only [Bool.and_eq_true, decide_eq_true_eq, Option.isNone_iff_eq_none] at hk
    exact inv_eq_none_iff.mp hk.2 (h k hk.1)

/-- 60_exceptions.md R181: the check finds the least offending index. -/
theorem firstInvalid_eq_some_iff (ch : Cells Byte) (p : Nat) (k : Fin 12) :
    firstInvalid ch p = some k ↔ FirstBad ch p k := by
  have key : ∀ (l : List (Fin Config.ncell)) (q : Fin Config.ncell → Bool), l.Pairwise (· < ·) →
      (l.find? q = some k ↔ k ∈ l ∧ q k = true ∧ ∀ j ∈ l, j < k → q j = false) := by
    intro l q hl
    induction l with
    | nil => simp
    | cons a l ih =>
      rw [List.pairwise_cons] at hl
      rw [List.find?_cons]
      cases hq : q a with
      | true =>
        simp only [Option.some.injEq, List.mem_cons]
        constructor
        · rintro rfl
          refine ⟨.inl rfl, hq, ?_⟩
          rintro j (rfl | hj) hlt
          · exact absurd hlt (lt_irrefl _)
          · exact absurd (hl.1 j hj) (not_lt.mpr hlt.le)
        · rintro ⟨rfl | hm, _, hj⟩
          · rfl
          · have := hj a (.inl rfl) (hl.1 k hm)
            rw [hq] at this; cases this
      | false =>
        rw [ih hl.2]
        simp only [List.mem_cons]
        constructor
        · rintro ⟨hm, hk, hj⟩
          refine ⟨.inr hm, hk, ?_⟩
          rintro j (rfl | h') hlt
          · exact hq
          · exact hj j h' hlt
        · rintro ⟨rfl | hm, hk, hj⟩
          · rw [hq] at hk; cases hk
          · exact ⟨hm, hk, fun j h' hlt => hj j (.inr h') hlt⟩
  unfold firstInvalid FirstBad
  rw [key _ _ (by decide)]
  simp only [mem_cellIndices, true_and, Bool.and_eq_true, decide_eq_true_eq, Option.isNone_iff_eq_none, inv_eq_none_iff,
    Bool.and_eq_false_iff, decide_eq_false_iff_not, forall_const]
  constructor
  · rintro ⟨⟨hk, hb⟩, hj⟩
    refine ⟨hk, hb, fun j hlt => ?_⟩
    rcases hj j hlt with h | h
    · exact absurd (lt_trans (Fin.lt_def.mp hlt) hk) h
    · by_contra hn
      rw [inv_eq_none_iff.mpr hn] at h
      cases h
  · rintro ⟨hk, hb, hj⟩
    refine ⟨⟨hk, hb⟩, fun j hlt => .inr ?_⟩
    have := hj j hlt
    cases h : (inv ch[j]).isNone with
    | false => rfl
    | true => exact absurd this (inv_eq_none_iff.mp (Option.isNone_iff_eq_none.mp h))

theorem lookupSyms_isCodeOf {ch : Cells Byte} {p : Nat} (h : ValidCells ch p) (k : Fin 12) (hk : k.val < p) :
    alpha ((lookupSyms ch p)[k]) = ch[k] := by
  rw [lookupSyms_getElem, if_pos hk]
  obtain ⟨s, hs⟩ := inAlphabet_iff.mp (h k hk)
  rw [inv_eq_some_iff.mpr hs]
  exact hs

theorem validCells_mapCells (sym : Cells Sym) (p : Nat) : ValidCells (mapCells sym p) p := by
  intro k hk
  rw [mapCells_getElem, if_pos hk]
  exact inAlphabet_iff.mpr ⟨_, rfl⟩

/-! ### Words of the buffers -/

theorem setChWord_getElem (ch : Cells Byte) (n : Fin 3) (w : Word) (k : Fin 12) :
    (setChWord ch n w)[k] = if k.val / 4 = n.val then w.extractLsb' (8 * (k.val % 4)) 8 else ch[k] :=
  tabulate_getElem _ _

theorem setSymWord_getElem (sym : Cells Sym) (n : Fin 3) (w : Word) (k : Fin 12) :
    (setSymWord sym n w)[k] = if k.val / 4 = n.val then w.extractLsb' (8 * (k.val % 4)) 5 else sym[k] :=
  tabulate_getElem _ _

/-! ### What the operands depend on, and the spec's relations -/

theorem symbolOf_congr {b c : Nat → Bool} {k : Nat} (h : ∀ i, 5 * k ≤ i → i < 5 * k + 5 → b i = c i) : symbolOf b k = symbolOf c k := by
  apply sym_ext; intro t ht
  rw [getLsbD_symbolOf _ _ _ ht, getLsbD_symbolOf _ _ _ ht]; exact h _ (by omega) (by omega)

theorem mapCells_congr {a b : Cells Sym} {p} (h : ∀ k : Fin 12, k.val < p → a[k] = b[k]) : mapCells a p = mapCells b p := by
  apply cells_ext; intro k
  rw [mapCells_getElem, mapCells_getElem]; split
  · rw [h k ‹_›]
  · rfl

theorem lookupSyms_congr {a b : Cells Byte} {p} (h : ∀ k : Fin 12, k.val < p → a[k] = b[k]) : lookupSyms a p = lookupSyms b p := by
  apply cells_ext; intro k
  rw [lookupSyms_getElem, lookupSyms_getElem]; split
  · rw [h k ‹_›]
  · rfl

theorem symBit_congr {a b : Cells Sym} {p} (hp : p ≤ 12) (h : ∀ k : Fin 12, k.val < p → a[k] = b[k]) {i} (hi : i < 5 * p) : symBit a i = symBit b i := by
  have e1 := symBit_eq a ⟨i / 5, by omega⟩ (i % 5) (by omega)
  have e2 := symBit_eq b ⟨i / 5, by omega⟩ (i % 5) (by omega)
  rw [show 5 * (i / 5) + i % 5 = i by omega] at e1 e2
  rw [e1, e2, h _ (show i / 5 < p by omega)]

theorem unpackLane_congr {a b : Cells Sym} {p} (hp : p ≤ 12) (h : ∀ k : Fin 12, k.val < p → a[k] = b[k]) (x : Axis) : unpackLane x a p = unpackLane x b p := by
  apply BitVec.eq_of_getLsbD_eq; intro i hi
  rw [getLsbD_unpackLane, getLsbD_unpackLane]
  by_cases hc : streamIndex x (31 - i) < 5 * p
  · rw [symBit_congr hp h hc]
  · simp [hc]

theorem validCells_congr {a b : Cells Byte} {p} (h : ∀ k : Fin 12, k.val < p → a[k] = b[k]) (hv : ValidCells a p) : ValidCells b p :=
  fun k hk => h k hk ▸ hv k hk

theorem firstBad_congr {a b : Cells Byte} {p k} (h : ∀ k : Fin 12, k.val < p → a[k] = b[k]) (hv : FirstBad a p k) : FirstBad b p k :=
  ⟨hv.1, h k hv.1 ▸ hv.2.1, fun j hj => h j (lt_trans hj hv.1) ▸ hv.2.2 j hj⟩

/-- 40_encode_path.md R131. -/
theorem symbolsOfLanes_packSyms (lon lat : Word) (p : Nat) : SymbolsOfLanes lon lat p (packSyms lon lat p) := by
  intro k t
  rw [getLsbD_packSyms _ _ _ _ _ t.isLt, streamBit_eq]

/-- 40_encode_path.md R133. -/
theorem charsOfSymbols_mapCells (sym : Cells Sym) (p : Nat) : CharsOfSymbols sym p (mapCells sym p) := by
  intro k
  rw [mapCells_getElem]
  exact ⟨fun h => by rw [if_pos h]; exact isCodeOf_alpha _, fun h => if_neg (by omega)⟩

/-- 41_decode_path.md R151. -/
theorem symbolsOfChars_lookupSyms {ch : Cells Byte} {p : Nat} (h : ValidCells ch p) : SymbolsOfChars ch p (lookupSyms ch p) := by
  intro k
  exact ⟨fun hk => isCodeOf_iff.mpr (lookupSyms_isCodeOf h k hk), fun hk => by rw [lookupSyms_getElem, if_neg (by omega)]⟩

/-- 41_decode_path.md R153. -/
theorem lanesOfSymbols_unpackLane (sym : Cells Sym) (p : Nat) (hp : p ≤ 12) : LanesOfSymbols sym p (unpackLane .longitude sym p) (unpackLane .latitude sym p) := by
  refine ⟨?_, ?_, ?_, ?_⟩
  · intro k t hk he
    have := streamBit_unpackLane sym p (5 * k.val + t.val) hp (by omega)
    rw [streamBit_eq, if_pos he, symBit_eq _ _ _ t.isLt] at this
    exact this
  · intro k t hk he
    have := streamBit_unpackLane sym p (5 * k.val + t.val) hp (by omega)
    rw [streamBit_eq, if_neg (by omega), symBit_eq _ _ _ t.isLt] at this
    exact this
  · intro j hj
    rw [getLsbD_unpackLane]
    simp [streamIndex, show 31 - (31 - j.val) = j.val by omega]; omega
  · intro j hj
    rw [getLsbD_unpackLane]
    simp [streamIndex, show 31 - (31 - j.val) = j.val by omega]; omega

end Sys2Proof.Machine
end

