-- ==== Sys2Proof/Laws/State.lean ====
section
/-! SUPPORT. One lemma per field per update of the state (Machine/Ops.lean), so that no later proof unfolds a record
update. -/

namespace Sys2Proof.Machine

@[simp] theorem setLon_lon (s : State) (v : Word) : (s.setLon v).lon = v := rfl
@[simp] theorem setLon_lat (s : State) (v : Word) : (s.setLon v).lat = s.lat := rfl
@[simp] theorem setLon_sym (s : State) (v : Word) : (s.setLon v).sym = s.sym := rfl
@[simp] theorem setLon_ch (s : State) (v : Word) : (s.setLon v).ch = s.ch := rfl
@[simp] theorem setLon_status (s : State) (v : Word) : (s.setLon v).status = s.status := rfl
@[simp] theorem setLon_nbits (s : State) (v : Word) : (s.setLon v).nbits = s.nbits := rfl
@[simp] theorem setLon_pending (s : State) (v : Word) : (s.setLon v).pending = s.pending := rfl
@[simp] theorem setLon_response (s : State) (v : Word) : (s.setLon v).response = s.response := rfl

@[simp] theorem setLat_lon (s : State) (v : Word) : (s.setLat v).lon = s.lon := rfl
@[simp] theorem setLat_lat (s : State) (v : Word) : (s.setLat v).lat = v := rfl
@[simp] theorem setLat_sym (s : State) (v : Word) : (s.setLat v).sym = s.sym := rfl
@[simp] theorem setLat_ch (s : State) (v : Word) : (s.setLat v).ch = s.ch := rfl
@[simp] theorem setLat_status (s : State) (v : Word) : (s.setLat v).status = s.status := rfl
@[simp] theorem setLat_nbits (s : State) (v : Word) : (s.setLat v).nbits = s.nbits := rfl
@[simp] theorem setLat_pending (s : State) (v : Word) : (s.setLat v).pending = s.pending := rfl
@[simp] theorem setLat_response (s : State) (v : Word) : (s.setLat v).response = s.response := rfl

@[simp] theorem setSym_lon (s : State) (v : Cells Sym) : (s.setSym v).lon = s.lon := rfl
@[simp] theorem setSym_lat (s : State) (v : Cells Sym) : (s.setSym v).lat = s.lat := rfl
@[simp] theorem setSym_sym (s : State) (v : Cells Sym) : (s.setSym v).sym = v := rfl
@[simp] theorem setSym_ch (s : State) (v : Cells Sym) : (s.setSym v).ch = s.ch := rfl
@[simp] theorem setSym_status (s : State) (v : Cells Sym) : (s.setSym v).status = s.status := rfl
@[simp] theorem setSym_nbits (s : State) (v : Cells Sym) : (s.setSym v).nbits = s.nbits := rfl
@[simp] theorem setSym_pending (s : State) (v : Cells Sym) : (s.setSym v).pending = s.pending := rfl
@[simp] theorem setSym_response (s : State) (v : Cells Sym) : (s.setSym v).response = s.response := rfl

@[simp] theorem setCh_lon (s : State) (v : Cells Byte) : (s.setCh v).lon = s.lon := rfl
@[simp] theorem setCh_lat (s : State) (v : Cells Byte) : (s.setCh v).lat = s.lat := rfl
@[simp] theorem setCh_sym (s : State) (v : Cells Byte) : (s.setCh v).sym = s.sym := rfl
@[simp] theorem setCh_ch (s : State) (v : Cells Byte) : (s.setCh v).ch = v := rfl
@[simp] theorem setCh_status (s : State) (v : Cells Byte) : (s.setCh v).status = s.status := rfl
@[simp] theorem setCh_nbits (s : State) (v : Cells Byte) : (s.setCh v).nbits = s.nbits := rfl
@[simp] theorem setCh_pending (s : State) (v : Cells Byte) : (s.setCh v).pending = s.pending := rfl
@[simp] theorem setCh_response (s : State) (v : Cells Byte) : (s.setCh v).response = s.response := rfl

@[simp] theorem setStatus_lon (s : State) (v : Status) : (s.setStatus v).lon = s.lon := rfl
@[simp] theorem setStatus_lat (s : State) (v : Status) : (s.setStatus v).lat = s.lat := rfl
@[simp] theorem setStatus_sym (s : State) (v : Status) : (s.setStatus v).sym = s.sym := rfl
@[simp] theorem setStatus_ch (s : State) (v : Status) : (s.setStatus v).ch = s.ch := rfl
@[simp] theorem setStatus_status (s : State) (v : Status) : (s.setStatus v).status = v := rfl
@[simp] theorem setStatus_nbits (s : State) (v : Status) : (s.setStatus v).nbits = s.nbits := rfl
@[simp] theorem setStatus_pending (s : State) (v : Status) : (s.setStatus v).pending = s.pending := rfl
@[simp] theorem setStatus_response (s : State) (v : Status) : (s.setStatus v).response = s.response := rfl

@[simp] theorem setNBits_lon (s : State) (v : NBits) : (s.setNBits v).lon = s.lon := rfl
@[simp] theorem setNBits_lat (s : State) (v : NBits) : (s.setNBits v).lat = s.lat := rfl
@[simp] theorem setNBits_sym (s : State) (v : NBits) : (s.setNBits v).sym = s.sym := rfl
@[simp] theorem setNBits_ch (s : State) (v : NBits) : (s.setNBits v).ch = s.ch := rfl
@[simp] theorem setNBits_status (s : State) (v : NBits) : (s.setNBits v).status = s.status := rfl
@[simp] theorem setNBits_nbits (s : State) (v : NBits) : (s.setNBits v).nbits = v := rfl
@[simp] theorem setNBits_pending (s : State) (v : NBits) : (s.setNBits v).pending = s.pending := rfl
@[simp] theorem setNBits_response (s : State) (v : NBits) : (s.setNBits v).response = s.response := rfl

@[simp] theorem setPending_lon (s : State) (v : List HostAction) : (s.setPending v).lon = s.lon := rfl
@[simp] theorem setPending_lat (s : State) (v : List HostAction) : (s.setPending v).lat = s.lat := rfl
@[simp] theorem setPending_sym (s : State) (v : List HostAction) : (s.setPending v).sym = s.sym := rfl
@[simp] theorem setPending_ch (s : State) (v : List HostAction) : (s.setPending v).ch = s.ch := rfl
@[simp] theorem setPending_status (s : State) (v : List HostAction) : (s.setPending v).status = s.status := rfl
@[simp] theorem setPending_nbits (s : State) (v : List HostAction) : (s.setPending v).nbits = s.nbits := rfl
@[simp] theorem setPending_pending (s : State) (v : List HostAction) : (s.setPending v).pending = v := rfl
@[simp] theorem setPending_response (s : State) (v : List HostAction) : (s.setPending v).response = s.response := rfl

@[simp] theorem setResponse_lon (s : State) (v : Option Response) : (s.setResponse v).lon = s.lon := rfl
@[simp] theorem setResponse_lat (s : State) (v : Option Response) : (s.setResponse v).lat = s.lat := rfl
@[simp] theorem setResponse_sym (s : State) (v : Option Response) : (s.setResponse v).sym = s.sym := rfl
@[simp] theorem setResponse_ch (s : State) (v : Option Response) : (s.setResponse v).ch = s.ch := rfl
@[simp] theorem setResponse_status (s : State) (v : Option Response) : (s.setResponse v).status = s.status := rfl
@[simp] theorem setResponse_nbits (s : State) (v : Option Response) : (s.setResponse v).nbits = s.nbits := rfl
@[simp] theorem setResponse_pending (s : State) (v : Option Response) : (s.setResponse v).pending = s.pending := rfl
@[simp] theorem setResponse_response (s : State) (v : Option Response) : (s.setResponse v).response = v := rfl

@[simp] theorem succeed_lon (s : State) : s.succeed.lon = s.lon := rfl
@[simp] theorem succeed_lat (s : State) : s.succeed.lat = s.lat := rfl
@[simp] theorem succeed_sym (s : State) : s.succeed.sym = s.sym := rfl
@[simp] theorem succeed_ch (s : State) : s.succeed.ch = s.ch := rfl
@[simp] theorem succeed_status (s : State) : s.succeed.status = s.status.success := rfl
@[simp] theorem succeed_nbits (s : State) : s.succeed.nbits = s.nbits := rfl
@[simp] theorem succeed_pending (s : State) : s.succeed.pending = s.pending := rfl
@[simp] theorem succeed_response (s : State) : s.succeed.response = s.response := rfl

@[simp] theorem succeedData_lon (s : State) (p : Nat) : (s.succeedData p).lon = s.lon := rfl
@[simp] theorem succeedData_lat (s : State) (p : Nat) : (s.succeedData p).lat = s.lat := rfl
@[simp] theorem succeedData_sym (s : State) (p : Nat) : (s.succeedData p).sym = s.sym := rfl
@[simp] theorem succeedData_ch (s : State) (p : Nat) : (s.succeedData p).ch = s.ch := rfl
@[simp] theorem succeedData_status (s : State) (p : Nat) : (s.succeedData p).status = s.status.success := rfl
@[simp] theorem succeedData_nbits (s : State) (p : Nat) : (s.succeedData p).nbits = NBits.ofPrecision p := rfl
@[simp] theorem succeedData_pending (s : State) (p : Nat) : (s.succeedData p).pending = s.pending := rfl
@[simp] theorem succeedData_response (s : State) (p : Nat) : (s.succeedData p).response = s.response := rfl

@[simp] theorem takeFault_lon (s : State) (f : CmdFault) : (s.takeFault f).lon = s.lon := rfl
@[simp] theorem takeFault_lat (s : State) (f : CmdFault) : (s.takeFault f).lat = s.lat := rfl
@[simp] theorem takeFault_sym (s : State) (f : CmdFault) : (s.takeFault f).sym = s.sym := rfl
@[simp] theorem takeFault_ch (s : State) (f : CmdFault) : (s.takeFault f).ch = s.ch := rfl
@[simp] theorem takeFault_status (s : State) (f : CmdFault) : (s.takeFault f).status = Status.faulted f := rfl
@[simp] theorem takeFault_nbits (s : State) (f : CmdFault) : (s.takeFault f).nbits = s.nbits := rfl
@[simp] theorem takeFault_pending (s : State) (f : CmdFault) : (s.takeFault f).pending = s.pending := rfl
@[simp] theorem takeFault_response (s : State) (f : CmdFault) : (s.takeFault f).response = s.response := rfl

@[simp] theorem acknowledge_lon (s : State) : s.acknowledge.lon = s.lon := rfl
@[simp] theorem acknowledge_lat (s : State) : s.acknowledge.lat = s.lat := rfl
@[simp] theorem acknowledge_sym (s : State) : s.acknowledge.sym = s.sym := rfl
@[simp] theorem acknowledge_ch (s : State) : s.acknowledge.ch = s.ch := rfl
@[simp] theorem acknowledge_status (s : State) : s.acknowledge.status = Status.zero := rfl
@[simp] theorem acknowledge_nbits (s : State) : s.acknowledge.nbits = s.nbits := rfl
@[simp] theorem acknowledge_pending (s : State) : s.acknowledge.pending = s.pending := rfl
@[simp] theorem acknowledge_response (s : State) : s.acknowledge.response = s.response := rfl

@[simp] theorem applyReset_lon (s : State) : s.applyReset.lon = State.reset.lon := rfl
@[simp] theorem applyReset_lat (s : State) : s.applyReset.lat = State.reset.lat := rfl
@[simp] theorem applyReset_sym (s : State) : s.applyReset.sym = State.reset.sym := rfl
@[simp] theorem applyReset_ch (s : State) : s.applyReset.ch = State.reset.ch := rfl
@[simp] theorem applyReset_status (s : State) : s.applyReset.status = State.reset.status := rfl
@[simp] theorem applyReset_nbits (s : State) : s.applyReset.nbits = State.reset.nbits := rfl
@[simp] theorem applyReset_pending (s : State) : s.applyReset.pending = s.pending := rfl
@[simp] theorem applyReset_response (s : State) : s.applyReset.response = State.reset.response := rfl

@[ext] theorem State.ext_fields {s t : State} (h1 : s.lon = t.lon) (h2 : s.lat = t.lat) (h3 : s.sym = t.sym)
    (h4 : s.ch = t.ch) (h5 : s.status = t.status) (h6 : s.nbits = t.nbits) (h7 : s.pending = t.pending)
    (h8 : s.response = t.response) : s = t := by
  cases s; cases t; simp_all

@[simp] theorem success_err (st : Status) : st.success.err = 0#3 := rfl
@[simp] theorem success_serr (st : Status) : st.success.serr = st.serr := rfl
@[simp] theorem success_eidx (st : Status) : st.success.eidx = 0#4 := rfl
@[simp] theorem success_ech (st : Status) : st.success.ech = 0x00#8 := rfl
@[simp] theorem faulted_err (f : CmdFault) : (Status.faulted f).err = f.code := rfl
@[simp] theorem faulted_serr (f : CmdFault) : (Status.faulted f).serr = true := rfl
@[simp] theorem faulted_eidx (f : CmdFault) : (Status.faulted f).eidx = f.eidx := rfl
@[simp] theorem faulted_ech (f : CmdFault) : (Status.faulted f).ech = f.ech := rfl

end Sys2Proof.Machine
end

