-- ==== Sys2Proof/Laws/Exec.lean ====
section
/-! SUPPORT. What each shared operation and each command can do, said once. -/

namespace Sys2Proof.Machine

/-! ### Shared operations -/

theorem withPrecision_legal {len : BitVec 4} (h : Legal len) (s : State) (rule : Nat → Result) :
    withPrecision len s rule = rule len.toNat := by
  simp [withPrecision, precision?_legal h]

theorem withPrecision_illegal {len : BitVec 4} (h : ¬ Legal len) (s : State) (rule : Nat → Result) :
    withPrecision len s rule = .next (s.takeFault .invalidPrecision) := by
  rcases precision?_cases len with ⟨h', _⟩ | ⟨_, e⟩
  · exact absurd h' h
  · simp [withPrecision, e]

theorem withValidCells_valid {p : Nat} {s : State} (h : ValidCells s.ch p) (rule : Result) :
    withValidCells p s rule = rule := by
  simp [withValidCells, (firstInvalid_eq_none_iff _ _).mpr h]

theorem withValidCells_bad {p : Nat} {s : State} {k : Fin 12} (h : FirstBad s.ch p k) (rule : Result) :
    withValidCells p s rule = .next (s.takeFault (.invalidCharacter k s.ch[k])) := by
  simp [withValidCells, (firstInvalid_eq_some_iff _ _ _).mpr h]

/-- A string is valid, or has a first bad cell; never both. -/
theorem validCells_or_firstBad (ch : Cells Byte) (p : Nat) : ValidCells ch p ∨ ∃ k, FirstBad ch p k := by
  cases h : firstInvalid ch p with
  | none => exact .inl ((firstInvalid_eq_none_iff _ _).mp h)
  | some k => exact .inr ⟨k, (firstInvalid_eq_some_iff _ _ _).mp h⟩

theorem FirstBad.not_valid {ch : Cells Byte} {p : Nat} {k : Fin 12} (h : FirstBad ch p k) : ¬ ValidCells ch p :=
  fun hv => h.2.1 (hv k h.1)

/-- A success of a data command: the report, the counts, and the model's own fields. -/
theorem dataSuccess_succeedData {s s' : State} {len : BitVec 4} (h : Legal len) (h1 : s'.status = s.status)
    (h2 : s'.pending = s.pending) (h3 : s'.response = s.response) :
    DataSuccess len.toNat s (s'.succeedData len.toNat) := by
  obtain ⟨ha, hb⟩ := h
  refine ⟨⟨rfl, rfl, rfl, by simp [h1]⟩, ?_, ?_, ?_, by simp [h2], by simp [h3]⟩ <;>
    simp only [succeedData_nbits, NBits.ofPrecision, nlonOf, nlatOf, Config.symw, BitVec.toNat_ofNat] <;> omega

/-! ### The commands, on a legal precision -/

theorem exec_pack {len : BitVec 4} (h : Legal len) (s : State) :
    exec (.pack len) s = .next ((s.setSym (packSyms s.lon s.lat len.toNat)).succeedData len.toNat) :=
  withPrecision_legal h s _

theorem exec_map {len : BitVec 4} (h : Legal len) (s : State) :
    exec (.map len) s = .next ((s.setCh (mapCells s.sym len.toNat)).succeedData len.toNat) :=
  withPrecision_legal h s _

theorem exec_encode {len : BitVec 4} (h : Legal len) (s : State) :
    exec (.encode len) s = .next (((s.setSym (packSyms s.lon s.lat len.toNat)).setCh
      (mapCells (packSyms s.lon s.lat len.toNat) len.toNat)).succeedData len.toNat) :=
  withPrecision_legal h s _

theorem exec_unpack {len : BitVec 4} (h : Legal len) (s : State) :
    exec (.unpack len) s = .next (((s.setLon (unpackLane .longitude s.sym len.toNat)).setLat
      (unpackLane .latitude s.sym len.toNat)).succeedData len.toNat) :=
  withPrecision_legal h s _

theorem exec_lookup {len : BitVec 4} (h : Legal len) {s : State} (hv : ValidCells s.ch len.toNat) :
    exec (.lookup len) s = .next ((s.setSym (lookupSyms s.ch len.toNat)).succeedData len.toNat) :=
  (withPrecision_legal h s _).trans (withValidCells_valid hv _)

theorem exec_lookup_bad {len : BitVec 4} (h : Legal len) {s : State} {k : Fin 12} (hk : FirstBad s.ch len.toNat k) :
    exec (.lookup len) s = .next (s.takeFault (.invalidCharacter k s.ch[k])) :=
  (withPrecision_legal h s _).trans (withValidCells_bad hk _)

theorem exec_decode {len : BitVec 4} (h : Legal len) {s : State} (hv : ValidCells s.ch len.toNat) :
    exec (.decode len) s = .next ((((s.setSym (lookupSyms s.ch len.toNat)).setLon
      (unpackLane .longitude (lookupSyms s.ch len.toNat) len.toNat)).setLat
      (unpackLane .latitude (lookupSyms s.ch len.toNat) len.toNat)).succeedData len.toNat) :=
  (withPrecision_legal h s _).trans (withValidCells_valid hv _)

theorem exec_decode_bad {len : BitVec 4} (h : Legal len) {s : State} {k : Fin 12} (hk : FirstBad s.ch len.toNat k) :
    exec (.decode len) s = .next (s.takeFault (.invalidCharacter k s.ch[k])) :=
  (withPrecision_legal h s _).trans (withValidCells_bad hk _)

/-! ### Every command, on every operand -/

/-- What one command can do to a state, said once: it faults with a report that fits, or it succeeds with its own
writes. -/
inductive Effect (s : State) : Instr → State → Prop
  | nop : Effect s .nop s.succeed
  | clear : Effect s .clear (State.succeed ((((((s.setLon 0#32).setLat 0#32).setSym (tabulate fun _ => 0#5)).setCh
      (tabulate fun _ => 0x00#8)).setNBits NBits.zero)))
  | clrerr : Effect s .clrerr s.acknowledge
  | pack {len} (h : Legal len) :
      Effect s (.pack len) ((s.setSym (packSyms s.lon s.lat len.toNat)).succeedData len.toNat)
  | map {len} (h : Legal len) : Effect s (.map len) ((s.setCh (mapCells s.sym len.toNat)).succeedData len.toNat)
  | encode {len} (h : Legal len) :
      Effect s (.encode len) (((s.setSym (packSyms s.lon s.lat len.toNat)).setCh
        (mapCells (packSyms s.lon s.lat len.toNat) len.toNat)).succeedData len.toNat)
  | lookup {len} (h : Legal len) (hv : ValidCells s.ch len.toNat) :
      Effect s (.lookup len) ((s.setSym (lookupSyms s.ch len.toNat)).succeedData len.toNat)
  | unpack {len} (h : Legal len) :
      Effect s (.unpack len) (((s.setLon (unpackLane .longitude s.sym len.toNat)).setLat
        (unpackLane .latitude s.sym len.toNat)).succeedData len.toNat)
  | decode {len} (h : Legal len) (hv : ValidCells s.ch len.toNat) :
      Effect s (.decode len) ((((s.setSym (lookupSyms s.ch len.toNat)).setLon
        (unpackLane .longitude (lookupSyms s.ch len.toNat) len.toNat)).setLat
        (unpackLane .latitude (lookupSyms s.ch len.toNat) len.toNat)).succeedData len.toNat)
  | lookupBad {len} (h : Legal len) {k : Fin 12} (hk : FirstBad s.ch len.toNat k) :
      Effect s (.lookup len) (s.takeFault (.invalidCharacter k s.ch[k]))
  | decodeBad {len} (h : Legal len) {k : Fin 12} (hk : FirstBad s.ch len.toNat k) :
      Effect s (.decode len) (s.takeFault (.invalidCharacter k s.ch[k]))
  | precision {i} (h : i.wellFormed = false) : Effect s i (s.takeFault .invalidPrecision)

/-- The data commands on a precision that is not legal (60_exceptions.md R182). -/
theorem exec_illFormed {i : Instr} (h : i.wellFormed = false) (s : State) :
    exec i s = .next (s.takeFault .invalidPrecision) := by
  cases i <;> simp only [Instr.wellFormed, reduceCtorEq] at h <;>
    exact withPrecision_illegal (fun hl => by rw [(legalPrecision_iff _).mpr hl] at h; cases h) s _

/-- Every command answers a next state, and what it does is one of the cases of `Effect`. -/
theorem exec_effect (i : Instr) (s : State) : ∃ t, exec i s = .next t ∧ Effect s i t := by
  cases hw : i.wellFormed with
  | false => exact ⟨_, exec_illFormed hw s, .precision hw⟩
  | true =>
    cases i with
    | nop => exact ⟨_, rfl, .nop⟩
    | clear => exact ⟨_, rfl, .clear⟩
    | clrerr => exact ⟨_, rfl, .clrerr⟩
    | pack len => have h := (legalPrecision_iff len).mp hw; exact ⟨_, exec_pack h s, .pack h⟩
    | map len => have h := (legalPrecision_iff len).mp hw; exact ⟨_, exec_map h s, .map h⟩
    | encode len => have h := (legalPrecision_iff len).mp hw; exact ⟨_, exec_encode h s, .encode h⟩
    | unpack len => have h := (legalPrecision_iff len).mp hw; exact ⟨_, exec_unpack h s, .unpack h⟩
    | lookup len =>
      have h := (legalPrecision_iff len).mp hw
      rcases validCells_or_firstBad s.ch len.toNat with hv | ⟨k, hk⟩
      · exact ⟨_, exec_lookup h hv, .lookup h hv⟩
      · exact ⟨_, exec_lookup_bad h hk, .lookupBad h hk⟩
    | decode len =>
      have h := (legalPrecision_iff len).mp hw
      rcases validCells_or_firstBad s.ch len.toNat with hv | ⟨k, hk⟩
      · exact ⟨_, exec_decode h hv, .decode h hv⟩
      · exact ⟨_, exec_decode_bad h hk, .decodeBad h hk⟩

/-- The inversion of a command, for every proof that starts from its next state. -/
theorem effect_of_exec {i : Instr} {s t : State} (h : exec i s = .next t) : Effect s i t := by
  obtain ⟨t', h', he⟩ := exec_effect i s
  rw [h'] at h
  cases h
  exact he

/-- The update that a fault is (60_exceptions.md R185), as a record. -/
theorem takeFault_eq (s : State) (f : CmdFault) :
    s.takeFault f = { s with status := ⟨f.code, true, f.eidx, f.ech⟩ } := rfl

/-- No command touches the model's own fields. -/
theorem effect_pending {s t : State} {i : Instr} (h : Effect s i t) : t.pending = s.pending ∧ t.response = s.response := by
  cases h <;> exact ⟨rfl, rfl⟩

/-- A command whose precision is not legal only reports it. -/
theorem effect_wf {s t : State} {i} (he : Effect s i t) : i.wellFormed = true ∨ t = s.takeFault .invalidPrecision := by
  cases he with
  | precision h => exact .inr rfl
  | pack h => exact .inl ((legalPrecision_iff _).mpr h)
  | map h => exact .inl ((legalPrecision_iff _).mpr h)
  | encode h => exact .inl ((legalPrecision_iff _).mpr h)
  | lookup h => exact .inl ((legalPrecision_iff _).mpr h)
  | unpack h => exact .inl ((legalPrecision_iff _).mpr h)
  | decode h => exact .inl ((legalPrecision_iff _).mpr h)
  | lookupBad h => exact .inl ((legalPrecision_iff _).mpr h)
  | decodeBad h => exact .inl ((legalPrecision_iff _).mpr h)
  | _ => exact .inl rfl

end Sys2Proof.Machine
end

