-- ==== Sys2Proof/Laws/Bus.lean ====
section
/-! SUPPORT. The register window and the step: what an access reaches, and everything one step can do. -/

namespace Sys2Proof.Machine

theorem regAt_offsetOf : ∀ r : Reg, regAt (offsetOf r) = some r := by
  intro r
  cases r with
  | chw n => fin_cases n <;> rfl
  | syw n => fin_cases n <;> rfl
  | _ => rfl

theorem offsetOf_mod : ∀ r : Reg, (offsetOf r).val % 4 = 0 := by
  intro r
  cases r with
  | chw n => fin_cases n <;> rfl
  | syw n => fin_cases n <;> rfl
  | _ => rfl

theorem accepted_offsetOf (r : Reg) : accepted .bits32 (offsetOf r) = some r := by
  simp [accepted, offsetOf_mod, regAt_offsetOf]

/-- Only a register's own offset reaches it (10_state.md R47 Table M). -/
theorem accepted_eq_some {size : AccessSize} {off : Offset} {r : Reg} (h : accepted size off = some r) :
    size = .bits32 ∧ off = offsetOf r := by
  have key : ∀ off : Offset, (regAt off).all (fun r => decide (off = offsetOf r)) = true := by decide
  have key := key off
  unfold accepted at h
  split at h
  · rename_i hc
    rw [h] at key
    exact ⟨hc.1, by simpa using key⟩
  · cases h

/-- Which accesses the window refuses (20_memory.md R74, R78). -/
theorem accepted_eq_none_iff (size : AccessSize) (off : Offset) :
    accepted size off = none ↔
      size ≠ .bits32 ∨ off.val % 4 ≠ 0 ∨ off.val ∈ [0x14, 0x18, 0x1C, 0x2C, 0x3C] := by
  have key : ∀ off : Offset, off.val % 4 = 0 → (regAt off = none ↔ off.val ∈ [0x14, 0x18, 0x1C, 0x2C, 0x3C]) := by
    decide
  unfold accepted
  by_cases h1 : size = .bits32 <;> by_cases h2 : off.val % 4 = 0
  · simp only [h1, h2, and_self, if_true, ne_eq, not_true_eq_false, false_or]
    exact key off h2
  all_goals simp [h1, h2]

/-- What a write to `CMD` does with a word, by the verdict on it (30_encoding.md R106). -/
theorem runWord_cases (s : State) (w : Word) :
    (∃ i, decode w = .ok i ∧ runWord s w = exec i s) ∨
      (∃ e, decode w = .error e ∧ runWord s w = .next (s.takeFault .illegalCommand)) := by
  unfold runWord
  cases h : decode w with
  | ok i => exact .inl ⟨i, rfl, rfl⟩
  | error e => exact .inr ⟨e, rfl, rfl⟩

/-- Everything a completed write to a register can leave. -/
inductive WriteEffect (s : State) (w : Word) : Reg → State → Prop
  | command {i t} (hd : decode w = .ok i) (he : Effect s i t) : WriteEffect s w .cmd t
  | illegal {e} (hd : decode w = .error e) : WriteEffect s w .cmd (s.takeFault .illegalCommand)
  | status : WriteEffect s w .status s
  | lon : WriteEffect s w .lon (s.setLon w)
  | lat : WriteEffect s w .lat (s.setLat w)
  | nbits : WriteEffect s w .nbits s
  | chw n : WriteEffect s w (.chw n) (s.setCh (setChWord s.ch n w))
  | syw n : WriteEffect s w (.syw n) (s.setSym (setSymWord s.sym n w))

theorem writeReg_effect (s : State) (w : Word) (r : Reg) : ∃ t, writeReg s w r = .next t ∧ WriteEffect s w r t := by
  cases r with
  | cmd =>
    rcases runWord_cases s w with ⟨i, hd, h⟩ | ⟨e, hd, h⟩
    · obtain ⟨t, ht, he⟩ := exec_effect i s
      exact ⟨t, h.trans ht, .command hd he⟩
    · exact ⟨_, h, .illegal hd⟩
  | status => exact ⟨_, rfl, .status⟩
  | lon => exact ⟨_, rfl, .lon⟩
  | lat => exact ⟨_, rfl, .lat⟩
  | nbits => exact ⟨_, rfl, .nbits⟩
  | chw n => exact ⟨_, rfl, .chw n⟩
  | syw n => exact ⟨_, rfl, .syw n⟩

/-- Everything one step can do (00_scope.md R10, R11). -/
inductive StepEffect (s : State) : State → Prop
  | idle (h : s.pending = []) : StepEffect s s
  | reset {rest} (h : s.pending = .reset :: rest) : StepEffect s (s.setPending rest).applyReset
  | read {rest size off r} (h : s.pending = .read size off :: rest) (ha : accepted size off = some r) :
      StepEffect s ((s.setPending rest).setResponse (some (.word (readReg (s.setPending rest) r))))
  | readRefused {rest size off} (h : s.pending = .read size off :: rest) (ha : accepted size off = none) :
      StepEffect s ((s.setPending rest).setResponse (some .busError))
  | write {rest w r t} (h : s.pending = .write .bits32 (offsetOf r) w :: rest)
      (he : WriteEffect ((s.setPending rest).setResponse (some .done)) w r t) : StepEffect s t
  | writeRefused {rest size off w} (h : s.pending = .write size off w :: rest) (ha : accepted size off = none) :
      StepEffect s ((s.setPending rest).setResponse (some .busError))

/-- The step on the first pending action. -/
theorem step_cons {s : State} {a : HostAction} {rest : List HostAction} (h : s.pending = a :: rest) :
    step s = applyAction (s.setPending rest) a := by
  simp [step, applyPending, h]

theorem step_nil {s : State} (h : s.pending = []) : step s = .next s := by
  simp [step, applyPending, h]

/-- The step on an accepted write. -/
theorem step_write {s : State} {r : Reg} {w : Word} {rest : List HostAction}
    (h : s.pending = .write .bits32 (offsetOf r) w :: rest) :
    step s = writeReg ((s.setPending rest).setResponse (some .done)) w r := by
  rw [step_cons h, applyAction, accepted_offsetOf]

/-- The step on an accepted read. -/
theorem step_read {s : State} {r : Reg} {rest : List HostAction}
    (h : s.pending = .read .bits32 (offsetOf r) :: rest) :
    step s = .next ((s.setPending rest).setResponse (some (.word (readReg (s.setPending rest) r)))) := by
  rw [step_cons h, applyAction, accepted_offsetOf]

theorem step_effect (s : State) : ∃ t, step s = .next t ∧ StepEffect s t := by
  cases hp : s.pending with
  | nil => exact ⟨s, step_nil hp, .idle hp⟩
  | cons a rest =>
    rw [step_cons hp]
    cases a with
    | reset => exact ⟨_, rfl, .reset hp⟩
    | read size off =>
      rw [applyAction]
      cases ha : accepted size off with
      | none => exact ⟨_, rfl, .readRefused hp ha⟩
      | some r => exact ⟨_, rfl, .read hp ha⟩
    | write size off w =>
      rw [applyAction]
      cases ha : accepted size off with
      | none => exact ⟨_, rfl, .writeRefused hp ha⟩
      | some r =>
        obtain ⟨rfl, rfl⟩ := accepted_eq_some ha
        obtain ⟨t, ht, he⟩ := writeReg_effect ((s.setPending rest).setResponse (some .done)) w r
        exact ⟨t, ht, .write hp he⟩

/-- The inversion of a step, for every proof that starts from its next state. -/
theorem effect_of_step {s t : State} (h : step s = .next t) : StepEffect s t := by
  obtain ⟨t', h', he⟩ := step_effect s
  rw [h'] at h
  cases h
  exact he

/-- No write touches the model's own fields. -/
theorem write_pending {s t : State} {w} {r : Reg} (h : WriteEffect s w r t) : t.pending = s.pending ∧ t.response = s.response := by
  cases h with
  | command hd he => exact effect_pending he
  | _ => exact ⟨rfl, rfl⟩

end Sys2Proof.Machine
end

