-- ==== Sys2Proof/Laws/Words.lean ====
section
/-! SUPPORT. The words a host reads and writes (20_memory.md R72, R75, R76), one lemma per word. -/

namespace Sys2Proof.Machine

/-- Byte `b` of character word `n` is cell `4n + b`. -/
theorem chWord_extract (ch : Cells Byte) (n : Fin 3) (b : Fin 4) (k : Fin 12) (hk : k.val = 4 * n.val + b.val) :
    (chWord ch n).extractLsb' (8 * b.val) 8 = ch[k] := by
  apply BitVec.eq_of_getLsbD_eq
  intro i hi
  have h1 : (8 * b.val + i) / 8 = b.val := by omega
  have h2 : (8 * b.val + i) % 8 = i := by omega
  have h3 : 4 * n.val + b.val < 12 := by omega
  simp only [BitVec.getLsbD_extractLsb', chWord, getLsbD_bitsOf, h1, h2, Config.ncell, h3, dite_true]
  simp [hi, ← hk, show 8 * b.val + i < 32 by omega]

/-- Byte `b` of symbol word `n` is cell `4n + b`, with bits 7:5 zero. -/
theorem symWord_extract (sym : Cells Sym) (n : Fin 3) (b : Fin 4) (k : Fin 12) (hk : k.val = 4 * n.val + b.val) :
    (symWord sym n).extractLsb' (8 * b.val) 5 = sym[k] ∧ (symWord sym n).extractLsb' (8 * b.val + 5) 3 = 0 := by
  constructor
  · apply BitVec.eq_of_getLsbD_eq
    intro i hi
    have h1 : (8 * b.val + i) / 8 = b.val := by omega
    have h2 : (8 * b.val + i) % 8 = i := by omega
    have h3 : 4 * n.val + b.val < 12 := by omega
    simp only [BitVec.getLsbD_extractLsb', symWord, getLsbD_bitsOf, h1, h2, Config.ncell, h3, dite_true]
    simp [hi, ← hk, show 8 * b.val + i < 32 by omega]
  · apply BitVec.eq_of_getLsbD_eq
    intro i hi
    have h1 : (8 * b.val + 5 + i) / 8 = b.val := by omega
    have h2 : (8 * b.val + 5 + i) % 8 = 5 + i := by omega
    have h3 : 4 * n.val + b.val < 12 := by omega
    simp only [BitVec.getLsbD_extractLsb', symWord, getLsbD_bitsOf, h1, h2, Config.ncell, h3, dite_true]
    simp

/-- The fields of a `STATUS` word (10_state.md R45 Table S). -/
theorem status_word_fields (st : Status) : st.word.extractLsb' 0 3 = st.err ∧ st.word.getLsbD 3 = st.serr ∧
          st.word.extractLsb' 4 4 = st.eidx ∧ st.word.extractLsb' 8 8 = st.ech ∧ st.word.extractLsb' 16 16 = 0 := by
  obtain ⟨e, se, ei, ec⟩ := st
  refine ⟨?_, ?_, ?_, ?_, ?_⟩
  · apply BitVec.eq_of_getLsbD_eq; intro i hi
    simp only [Status.word, BitVec.getLsbD_extractLsb', BitVec.getLsbD_setWidth, BitVec.getLsbD_append]; interval_cases i <;> simp
  · simp only [Status.word, BitVec.getLsbD_setWidth, BitVec.getLsbD_append]; cases se <;> simp
  · apply BitVec.eq_of_getLsbD_eq; intro i hi
    simp only [Status.word, BitVec.getLsbD_extractLsb', BitVec.getLsbD_setWidth, BitVec.getLsbD_append]; interval_cases i <;> simp
  · apply BitVec.eq_of_getLsbD_eq; intro i hi
    simp only [Status.word, BitVec.getLsbD_extractLsb', BitVec.getLsbD_setWidth, BitVec.getLsbD_append]; interval_cases i <;> simp
  · apply BitVec.eq_of_getLsbD_eq; intro i hi
    simp only [Status.word, BitVec.getLsbD_extractLsb', BitVec.getLsbD_setWidth, BitVec.getLsbD_append]; interval_cases i <;> simp

/-- The fields of an `NBITS` word (10_state.md R46 Table N). -/
theorem nbits_word_fields (nb : NBits) : nb.word.extractLsb' 0 6 = nb.nlon ∧ nb.word.extractLsb' 6 2 = 0 ∧
          nb.word.extractLsb' 8 6 = nb.nlat ∧ nb.word.extractLsb' 14 2 = 0 ∧ nb.word.extractLsb' 16 4 = nb.len ∧
          nb.word.extractLsb' 20 12 = 0 := by
  obtain ⟨a, b, c⟩ := nb
  refine ⟨?_, ?_, ?_, ?_, ?_, ?_⟩ <;> apply BitVec.eq_of_getLsbD_eq <;> intro i hi <;>
    simp only [NBits.word, BitVec.getLsbD_extractLsb', BitVec.getLsbD_setWidth, BitVec.getLsbD_append] <;> interval_cases i <;> simp

/-- A character word reads back as it was written (20_memory.md R75, R76). -/
theorem chWord_setChWord (ch : Cells Byte) (n : Fin 3) (w : Word) : chWord (setChWord ch n w) n = w := by
  apply BitVec.eq_of_getLsbD_eq
  intro i hi
  have h3 : 4 * n.val + i / 8 < 12 := by omega
  simp only [chWord, getLsbD_bitsOf, hi, Config.ncell, h3, dite_true, decide_true, Bool.true_and]
  have := setChWord_getElem ch n w ⟨4 * n.val + i / 8, h3⟩
  rw [if_pos (by simp; omega)] at this
  simp only [Fin.getElem_fin] at this
  rw [this]
  simp [show (4 * n.val + i / 8) % 4 = i / 8 by omega, show 8 * (i / 8) + i % 8 = i by omega, show i % 8 < 8 by omega]

/-- A symbol word reads back without bits 7:5 of each byte. -/
theorem symWord_setSymWord (sym : Cells Sym) (n : Fin 3) (w : Word) : symWord (setSymWord sym n w) n = w &&& 0x1F1F1F1F#32 := by
  apply BitVec.eq_of_getLsbD_eq
  intro i hi
  have h3 : 4 * n.val + i / 8 < 12 := by omega
  simp only [symWord, getLsbD_bitsOf, hi, Config.ncell, h3, dite_true, decide_true, Bool.true_and]
  have := setSymWord_getElem sym n w ⟨4 * n.val + i / 8, h3⟩
  rw [if_pos (by simp; omega)] at this
  simp only [Fin.getElem_fin] at this
  rw [this]
  simp [show (4 * n.val + i / 8) % 4 = i / 8 by omega, show 8 * (i / 8) + i % 8 = i by omega]
  have : ∀ i < 32, (decide (i % 8 < 5)) = (0x1F1F1F1F#32).getLsbD i := by decide
  rw [this i hi, Bool.and_comm]

end Sys2Proof.Machine
end

