-- ==== Sys2Proof/Laws/Driver.lean ====
section
/-! SUPPORT. The accesses of a host script, one lemma each (30_encoding.md R116), and the lane of a list of bits, read
back as a cell number (00_scope.md R18, R19). -/

namespace Sys2Proof.Machine

/-! ### Scripts -/

@[simp] theorem runScript_nil (s : State) : runScript [] s = some (s, []) := rfl

/-- A write of a script that takes effect; the actions still pending stay. -/
theorem runScript_write {r : Reg} {w : Word} {s t : State} (as : List HostAction)
    (h : writeReg (s.setResponse (some .done)) w r = .next t) :
    runScript (scriptWrite r w :: as) s = runScript as t := by
  have hs : step (s.setPending (scriptWrite r w :: s.pending)) = .next t := (step_write rfl).trans h
  obtain ⟨t', h', he⟩ := writeReg_effect (s.setResponse (some .done)) w r
  rw [h] at h'
  cases h'
  have hr : t.response = some .done := (write_pending he).2
  simp [runScript, hs, hr, readWords]

/-- A read of a script. -/
theorem runScript_read (r : Reg) (s : State) (as : List HostAction) :
    runScript (scriptRead r :: as) s =
      (runScript as (s.setResponse (some (.word (readReg s r))))).map fun q => (q.1, readReg s r :: q.2) := by
  have hs : step (s.setPending (scriptRead r :: s.pending)) =
      .next (s.setResponse (some (.word (readReg s r)))) := step_read rfl
  simp [runScript, hs, readWords]

/-- A command of a script. -/
theorem runScript_command {i : Instr} {s t : State} (as : List HostAction) (hd : decode (encode i) = .ok i)
    (h : exec i (s.setResponse (some .done)) = .next t) :
    runScript (scriptCommand i :: as) s = runScript as t := by
  refine runScript_write as (Eq.trans ?_ h)
  simp only [writeReg, runWord, hd]

/-! ### The bytes of a string -/

/-- The bytes of a character word are its four cells, in order (20_memory.md R72). -/
theorem wordBytes_chWord (ch : Cells Byte) (n : Fin 3) :
    wordBytes (chWord ch n) =
      [ch[4 * n.val]'(by show _ < 12; omega), ch[4 * n.val + 1]'(by show _ < 12; omega),
        ch[4 * n.val + 2]'(by show _ < 12; omega), ch[4 * n.val + 3]'(by show _ < 12; omega)] := by
  have h := fun b k hk => chWord_extract ch n b k hk
  unfold wordBytes
  rw [show (chWord ch n).extractLsb' 0 8 = _ from h 0 ⟨4 * n.val, by omega⟩ rfl,
    show (chWord ch n).extractLsb' 8 8 = _ from h 1 ⟨4 * n.val + 1, by omega⟩ rfl,
    show (chWord ch n).extractLsb' 16 8 = _ from h 2 ⟨4 * n.val + 2, by omega⟩ rfl,
    show (chWord ch n).extractLsb' 24 8 = _ from h 3 ⟨4 * n.val + 3, by omega⟩ rfl]
  rfl

/-- A write of word `n` of a string puts its characters into the cells of that word. -/
theorem setChWord_stringWord (str : List Byte) (n : Fin 3) (ch : Cells Byte) (k : Fin 12) :
    (setChWord ch n (stringWord str n.val))[k] = if k.val / 4 = n.val then str.getD k.val 0#8 else ch[k] := by
  rw [setChWord_getElem]
  split
  · apply BitVec.eq_of_getLsbD_eq
    intro i hi
    rw [BitVec.getLsbD_extractLsb', stringWord, getLsbD_bitsOf, show (8 * (k.val % 4) + i) / 8 = k.val % 4 by omega,
      show (8 * (k.val % 4) + i) % 8 = i by omega, show 4 * n.val + k.val % 4 = k.val by omega]
    simp [hi, show 8 * (k.val % 4) + i < 32 by omega]
  · rfl

/-! ### Lanes -/

/-- The number whose binary digits are `bs`, most significant first. -/
def bitsValue (bs : List Bool) : Nat := bs.foldl (fun n b => 2 * n + b.toNat) 0

theorem bitsValue_append (bs : List Bool) (b : Bool) : bitsValue (bs ++ [b]) = 2 * bitsValue bs + b.toNat := by
  simp [bitsValue]

theorem testBit_bitsValue (bs : List Bool) : ∀ i, (bitsValue bs).testBit i =
    (decide (i < bs.length) && bs.getD (bs.length - 1 - i) false) := by
  induction bs using List.reverseRecOn with
  | nil => intro i; simp [bitsValue]
  | append_singleton bs b ih =>
    intro i
    rw [bitsValue_append]
    cases i with
    | zero => cases b <;> simp [Nat.testBit_zero]
    | succ i =>
      have h2 : (2 * bitsValue bs + b.toNat) / 2 = bitsValue bs := by
        have := Bool.toNat_le b; omega
      rw [Nat.testBit_succ, h2, ih]
      by_cases h : i < bs.length
      · have h3 : bs.length - 1 - i < bs.length := by omega
        rw [List.length_append, List.length_singleton, show bs.length + 1 - 1 - (i + 1) = bs.length - 1 - i by omega,
          List.getD_append _ _ _ _ h3]
        simp [h]
      · simp [h]

/-- The cell of a lane that holds the bits of an axis is the number they write. -/
theorem cellOfLane_laneOfBits (bs : List Bool) (h : bs.length ≤ 32) :
    cellOfLane (laneOfBits bs) bs.length = bitsValue bs := by
  apply Nat.eq_of_testBit_eq
  intro i
  rw [testBit_bitsValue, cellOfLane, Nat.testBit_div_two_pow, BitVec.testBit_toNat, laneOfBits, getLsbD_bitsOf]
  by_cases hi : i < bs.length
  · simp [hi, show i + (32 - bs.length) < 32 by omega,
      show 31 - (i + (32 - bs.length)) = bs.length - 1 - i by omega]
  · simp [hi, show ¬ i + (32 - bs.length) < 32 by omega]

theorem length_quantiseBits (x : Rat) (n : Nat) : ∀ lo hi, (quantiseBits x lo hi n).length = n := by
  induction n with
  | zero => intro lo hi; rfl
  | succ n ih => intro lo hi; rw [quantiseBits]; split <;> simp [ih]

end Sys2Proof.Machine
end

