-- ==== Sys2Proof/Laws/PerInstr.lean ====
section
/-! SUPPORT. Family `TableO`: the word of each command against its row of 30_encoding.md R104 Table O (match and mask,
as spec/opcode_table.json lists them). -/

namespace Sys2Proof.Laws.TableO

/-- Column `match` of Table O. -/
def matchWord : Instr → Word
  | .nop => 0x00000000
  | .clear => 0x00000001
  | .clrerr => 0x00000002
  | .pack _ => 0x00000005
  | .map _ => 0x00000006
  | .encode _ => 0x00000007
  | .lookup _ => 0x00000009
  | .unpack _ => 0x0000000A
  | .decode _ => 0x0000000B

/-- Column `mask` of Table O. -/
def maskWord : Instr → Word
  | .nop => 0xFFFFFFFF
  | .clear => 0xFFFFFFFF
  | .clrerr => 0xFFFFFFFF
  | .pack _ => 0xFFFFF0FF
  | .map _ => 0xFFFFF0FF
  | .encode _ => 0xFFFFF0FF
  | .lookup _ => 0xFFFFF0FF
  | .unpack _ => 0xFFFFF0FF
  | .decode _ => 0xFFFFF0FF

/-- The word of a command matches its row. -/
def Statement (i : Instr) : Prop := encode i &&& maskWord i = matchWord i

theorem nop : Statement .nop := by unfold Statement; decide
theorem clear : Statement .clear := by unfold Statement; decide
theorem clrerr : Statement .clrerr := by unfold Statement; decide
theorem pack (len : BitVec 4) : Statement (.pack len) := by revert len; unfold Statement; decide
theorem map (len : BitVec 4) : Statement (.map len) := by revert len; unfold Statement; decide
theorem encode (len : BitVec 4) : Statement (.encode len) := by revert len; unfold Statement; decide
theorem lookup (len : BitVec 4) : Statement (.lookup len) := by revert len; unfold Statement; decide
theorem unpack (len : BitVec 4) : Statement (.unpack len) := by revert len; unfold Statement; decide
theorem decode (len : BitVec 4) : Statement (.decode len) := by revert len; unfold Statement; decide

end Sys2Proof.Laws.TableO
end

