-- ==== Sys2Proof/Tests/Slice0.lean ====
section
/-! SUPPORT. The model's own tests. Every expected value is one of the spec's: a worked example of a rule, a row of
95_test_vectors.md (S, T, P) or a word written out from 30_encoding.md R101, R104. -/

namespace Sys2Proof.Tests

open Sys2Proof.Machine

/-- The reset state with lanes and buffers written as a host would write them. -/
def stateOf (lon lat chw0 chw1 chw2 syw0 syw1 syw2 : Word) : State :=
  { State.reset with
    lon := lon
    lat := lat
    ch := setChWord (setChWord (setChWord State.reset.ch 0 chw0) 1 chw1) 2 chw2
    sym := setSymWord (setSymWord (setSymWord State.reset.sym 0 syw0) 1 syw1) 2 syw2 }

/-- A state whose next host action is `a`. -/
def withAction (s : State) (a : HostAction) : State := { s with pending := [a] }

/-- What a host reads after an outcome. -/
def readAfter (o : Result) (r : Reg) : Option Word :=
  match o with
  | .next t => some (readReg t r)
  | .fault _ => none
  | .refused _ => none

/-- The response after an outcome. -/
def responseAfter (o : Result) : Option Response :=
  match o with
  | .next t => t.response
  | .fault _ => none
  | .refused _ => none

/-- `STATUS`, `LON`, `LAT`, `NBITS`, `CHW0..2`, `SYW0..2` after an outcome, the tuple of 95_test_vectors.md. -/
def registersAfter (o : Result) : List (Option Word) :=
  [.status, .lon, .lat, .nbits, .chw 0, .chw 1, .chw 2, .syw 0, .syw 1, .syw 2].map (readAfter o)

/-! ### Well-formedness -/

/-- Each data command refuses the precision 0 (30_encoding.md R107 (d)). -/
theorem test_ill_formed_zero :
    [Instr.pack 0, .map 0, .encode 0, .lookup 0, .unpack 0, .decode 0].all (fun i => !i.wellFormed) = true := by decide

/-- Each data command refuses the precisions above 12 (30_encoding.md R107 (d)). -/
theorem test_ill_formed_large :
    [Instr.pack 13, .map 14, .encode 15, .lookup 13, .unpack 14, .decode 15].all (fun i => !i.wellFormed) = true := by
  decide

/-- Control commands and the ends of the legal range are well-formed. -/
theorem test_well_formed :
    [Instr.nop, .clear, .clrerr, .pack 1, .map 12, .encode 9, .lookup 1, .unpack 12, .decode 5].all
      Instr.wellFormed = true := by decide

/-! ### Decoding: words written out bit by bit, bit 31 first (30_encoding.md Table O) -/

theorem test_decode_nop : decode 0b00000000000000000000000000000000#32 = .ok .nop := by rfl
theorem test_decode_clear : decode 0b00000000000000000000000000000001#32 = .ok .clear := by rfl
theorem test_decode_clrerr : decode 0b00000000000000000000000000000010#32 = .ok .clrerr := by rfl
theorem test_decode_pack : decode 0b00000000000000000000110000000101#32 = .ok (.pack 12) := by rfl
theorem test_decode_map : decode 0b00000000000000000000000100000110#32 = .ok (.map 1) := by rfl
theorem test_decode_encode : decode 0b00000000000000000000100100000111#32 = .ok (.encode 9) := by rfl
theorem test_decode_lookup : decode 0b00000000000000000000010100001001#32 = .ok (.lookup 5) := by rfl
theorem test_decode_unpack : decode 0b00000000000000000000101100001010#32 = .ok (.unpack 11) := by rfl
theorem test_decode_decode : decode 0b00000000000000000000101000001011#32 = .ok (.decode 10) := by rfl

/-- T100 to T114: words that are no command. -/
theorem test_reject :
    [0x3#32, 0x4#32, 0x8#32, 0xC#32, 0xF#32, 0x10907#32, 0x917#32, 0x1507#32, 0x587#32, 0x80000000#32, 0xFFFFFFFF#32,
      0x100#32, 0x501#32, 0x102#32, 0x503#32, 0xD13#32].all (fun w => verdict w == .illegalCommand) = true := by decide

/-- T96 to T99: the precision is judged after the word. -/
theorem test_reject_precision :
    [0x7#32, 0xB#32, 0xD0B#32, 0xF05#32].all (fun w => verdict w == .invalidPrecision) = true := by decide

/-- 30_encoding.md Table L, one column each: the encoder. -/
theorem test_encode_words :
    [encode (.pack 1), encode (.map 12), encode (.encode 9), encode (.lookup 10), encode (.unpack 4),
      encode (.decode 5), encode .clrerr] = [0x105#32, 0xC06#32, 0x907#32, 0xA09#32, 0x40A#32, 0x50B#32, 0x2#32] := by
  decide

theorem test_table_word : decodeTableWord 32 0x907 = some (.encode 9) := by rfl
theorem test_table_word_reserved : decodeTableWord 32 0x10907 = none := by rfl

/-! ### The tables -/

/-- 10_state.md R34, R35: the alphabet is the string of the document in ASCII. -/
theorem test_alphabet :
    alphaTable = "0123456789bcdefghjkmnpqrstuvwxyz".toList.map (fun c => BitVec.ofNat 8 c.toNat) := by decide

/-- 10_state.md R36: some of the invalid cells; R37 (d): exactly 32 are valid. -/
theorem test_inverse :
    ([0x00, 0x2F, 0x3A, 0x41, 0x42, 0x5A, 0x61, 0x69, 0x6C, 0x6F, 0x7B, 0xFF].all fun c => (inv c).isNone) = true ∧
    (((List.range 256).filter fun c => (inv (BitVec.ofNat 8 c)).isSome).length = 32) := by decide

/-- 10_state.md Table G: `nlon` and `nlat` of every legal precision. -/
theorem test_table_g :
    (List.range' 1 12).map (fun p => (nlonOf p, nlatOf p)) =
      [(3, 2), (5, 5), (8, 7), (10, 10), (13, 12), (15, 15), (18, 17), (20, 20), (23, 22), (25, 25), (28, 27),
        (30, 30)] := by decide

/-! ### Commands, one step each -/

/-- T17: the parity is of the global index, so the pattern flips in symbol 1. -/
theorem test_pack_parity :
    readAfter (exec (.pack 2) (stateOf 0xFFFFFFFF 0 0 0 0 0 0 0)) (.syw 0) = some 0x00000A15#32 := by decide

/-- T19: the last longitude bit used at P = 12 is LON[2]. -/
theorem test_pack_last :
    registersAfter (exec (.pack 12) (stateOf 0x00000004 0 0 0 0 0 0 0)) =
      [0, 0x4, 0, 0xC1E1E, 0, 0, 0, 0, 0, 0x02000000].map (fun w => some (BitVec.ofNat 32 w)) := by decide

/-- T25: bits 7:5 of each SYW byte are not stored; the symbols map to 0z45. -/
theorem test_map_mask :
    registersAfter (exec (.map 4) (stateOf 0 0 0x58585858 0x58585858 0x58585858 0xE5A43F20 0 0)) =
      [0, 0, 0, 0x40A0A, 0x35347A30, 0, 0, 0x05041F00, 0, 0].map (fun w => some (BitVec.ofNat 32 w)) := by decide

/-- T22: symbols 24 to 31, cells 8 to 11 zeroed. -/
theorem test_map_high :
    readAfter (exec (.map 8) (stateOf 0 0 0x58585858 0x58585858 0x58585858 0x1B1A1918 0x1F1E1D1C 0)) (.chw 1)
      = some 0x7A797877#32 := by decide

/-- T46, S1: ww8p1r4t8, the document's first scenario. -/
theorem test_encode_ww8p1r4t8 :
    registersAfter (exec (.encode 9) (stateOf 0xD00AA1A3 0xB5CE5B42 0 0 0 0 0 0)) =
      [0, 0xD00AA1A3, 0xB5CE5B42, 0x91617, 0x70387777, 0x74347231, 0x38, 0x15081C1C, 0x19041701, 0x8].map
        (fun w => some (BitVec.ofNat 32 w)) := by decide

/-- T43: the last stream bit at P = 12 is LAT[2]. -/
theorem test_encode_last :
    readAfter (exec (.encode 12) (stateOf 0 0x00000004 0 0 0 0 0 0)) (.chw 2) = some 0x31303030#32 := by decide

/-- T51: dqcjq. -/
theorem test_lookup_dqcjq :
    registersAfter (exec (.lookup 5) (stateOf 0x12345678 0x9ABCDEF0 0x6A637164 0x71 0 0x1F1F1F1F 0x1F1F1F1F 0x1F1F1F1F)) =
      [0, 0x12345678, 0x9ABCDEF0, 0x50C0D, 0x6A637164, 0x71, 0, 0x110B160C, 0x16, 0].map
        (fun w => some (BitVec.ofNat 32 w)) := by decide

/-- T53: a fault at the highest index; SYM and NBITS untouched. -/
theorem test_lookup_fault :
    registersAfter (exec (.lookup 12) (stateOf 0 0 0x7A7A7A7A 0x7A7A7A7A 0x417A7A7A 0x1F1F1F1F 0x1F1F1F1F 0x1F1F1F1F)) =
      [0x41B9, 0, 0, 0, 0x7A7A7A7A, 0x7A7A7A7A, 0x417A7A7A, 0x1F1F1F1F, 0x1F1F1F1F, 0x1F1F1F1F].map
        (fun w => some (BitVec.ofNat 32 w)) := by decide

/-- T61: three longitude bits, two latitude bits, every lower lane bit zeroed. -/
theorem test_unpack_zeroes :
    registersAfter (exec (.unpack 1) (stateOf 0xDEADBEEF 0xCAFEF00D 0 0 0 0x1F 0 0)) =
      [0, 0xE0000000, 0xC0000000, 0x10203, 0, 0, 0, 0x1F, 0, 0].map (fun w => some (BitVec.ofNat 32 w)) := by decide

/-- T68: 30 bits a lane at P = 12. -/
theorem test_unpack_full :
    readAfter (exec (.unpack 12) (stateOf 0 0 0 0 0 0x1F1F1F1F 0x1F1F1F1F 0x1F1F1F1F)) .lon = some 0xFFFFFFFC#32 := by
  decide

/-- T80: twelve different characters. -/
theorem test_decode_twelve :
    registersAfter (exec (.decode 12) (stateOf 0x11111111 0x22222222 0x33323130 0x37363534 0x63623938 0 0 0)) =
      [0, 0x0050910C, 0x0A46B8E4, 0xC1E1E, 0x33323130, 0x37363534, 0x63623938, 0x03020100, 0x07060504, 0x0B0A0908].map
        (fun w => some (BitVec.ofNat 32 w)) := by decide

/-- T85: the lanes stay, only STATUS changes. -/
theorem test_decode_fault :
    registersAfter (exec (.decode 5) (stateOf 0x11111111 0x22222222 0x6A637164 0x61 0 0 0 0)) =
      [0x6149, 0x11111111, 0x22222222, 0, 0x6A637164, 0x61, 0, 0, 0, 0].map (fun w => some (BitVec.ofNat 32 w)) := by
  decide

/-- A state left by a fault: STATUS = 0x6119 (60_exceptions.md R181). -/
def faultedState : State := (stateOf 1 2 3 4 5 6 7 8).takeFault (.invalidCharacter 1 0x61)

/-- 42_control.md R170, example. -/
theorem test_nop_keeps_serr : readAfter (exec .nop faultedState) .status = some 0x8#32 := by decide

/-- T92: CLEAR zeroes the data state and keeps SERR. -/
theorem test_clear :
    registersAfter (exec .clear faultedState) =
      [0x8, 0, 0, 0, 0, 0, 0, 0, 0, 0].map (fun w => some (BitVec.ofNat 32 w)) := by decide

/-- 42_control.md R172, example; the data state stays. -/
theorem test_clrerr :
    registersAfter (exec .clrerr faultedState) =
      [0, 1, 2, 0, 3, 4, 5, 6, 7, 8].map (fun w => some (BitVec.ofNat 32 w)) := by decide

/-! ### Steps: the bus and the command word -/

/-- T116: InvalidPrecision wins over bad characters. -/
theorem test_step_priority :
    readAfter (step (withAction (stateOf 0 0 0x61616161 0x61 0 0 0 0) (.write .bits32 0 0xD0B))) .status
      = some 0xA#32 := by decide

/-- T115: IllegalCommand wins over both. -/
theorem test_step_illegal :
    readAfter (step (withAction (stateOf 0 0 0x6A637164 0x71 0 0 0 0) (.write .bits32 0 0xD13))) .status
      = some 0xB#32 := by decide

/-- T123, T124: reserved offsets. -/
theorem test_step_reserved :
    ([0x14, 0x18, 0x1C, 0x2C, 0x3C] : List Offset).all (fun off =>
      responseAfter (step (withAction State.reset (.read .bits32 off))) == some .busError &&
      responseAfter (step (withAction State.reset (.write .bits32 off 7))) == some .busError) = true := by decide

/-- T125, T126, T127: unaligned and narrow accesses. -/
theorem test_step_refused :
    responseAfter (step (withAction State.reset (.read .bits32 0x09))) = some .busError ∧
    registersAfter (step (withAction State.reset (.write .bits8 0x00 0x3))) =
      List.replicate 10 (some 0#32) := by decide

/-- T132: cells of a word, lowest-numbered in the low byte. -/
theorem test_step_write_chw1 :
    (match step (withAction State.reset (.write .bits32 0x24 0xA1B2C3D4)) with
      | .next t => [t.ch[4], t.ch[5], t.ch[6], t.ch[7]]
      | _ => []) = [0xD4, 0xC3, 0xB2, 0xA1] := by decide

/-- T133. -/
theorem test_step_write_syw2 :
    readAfter (step (withAction State.reset (.write .bits32 0x38 0xFFFFFFFF))) (.syw 2) = some 0x1F1F1F1F#32 := by decide

/-- T128: CMD reads 0. -/
theorem test_step_read_cmd :
    responseAfter (step (withAction faultedState (.read .bits32 0))) = some (.word 0) := by decide

/-- 60_exceptions.md R181, example, read over the bus. -/
theorem test_step_read_status :
    responseAfter (step (withAction faultedState (.read .bits32 4))) = some (.word 0x6119) := by decide

/-- T129: a write to STATUS completes and is ignored. -/
theorem test_step_write_status :
    readAfter (step (withAction faultedState (.write .bits32 4 0xFFFFFFFF))) .status = some 0x6119#32 ∧
    responseAfter (step (withAction faultedState (.write .bits32 4 0xFFFFFFFF))) = some .done := by decide

/-- 70_reset_and_hazards.md R210. -/
theorem test_step_reset :
    registersAfter (step (withAction faultedState .reset)) = List.replicate 10 (some 0#32) := by decide

/-- The command placed for the next step runs. -/
theorem test_fetch_word :
    readAfter (step (State.reset.withFetchWord 32 0x106)) (.chw 0) = some 0x30#32 := by decide

/-! ### Bit-serial readings and the driver -/

/-- T18 by the loop of 40_encode_path.md R132. -/
theorem test_serial_pack :
    symWord (packSerial 0x7C000000 0xBC900000 State.reset.sym 5).sym 0 = 0x04181F0D#32 := by decide

/-- The example of 41_decode_path.md R153 by the loop of R154. -/
theorem test_serial_unpack :
    (unpackSerial (setSymWord (setSymWord State.reset.sym 0 0x110B160C) 1 0x16) 5).lat = 0xB7500000#32 := by decide +kernel

/-- 30_encoding.md R116 on `dqcjq` (the words of 41_decode_path.md R151), and no script for 16 characters (log 5). -/
theorem test_gh_decode :
    ghDecode [0x64, 0x71, 0x63, 0x6A, 0x71] = some [.write .bits32 0x20 0x6A637164, .write .bits32 0x24 0x71,
      .write .bits32 0x00 0x50B, .read .bits32 0x04] ∧
    ghDecode (List.replicate 16 0x30) = none ∧ ghDecode (List.replicate 17 0x30) = none := by decide

/-- What `GH.ENCODE` gives its caller, for P1's lanes (95_test_vectors.md S1: `ww8p1r4t8`), and for a precision GHIL
refuses (60_exceptions.md R182: `STATUS` = 0xA). -/
theorem test_run_gh_encode :
    (runGhEncodeDefault 0xD00AA1A3 0xB5CE5B42 faultedState).map Prod.snd =
      some (.string [0x77, 0x77, 0x38, 0x70, 0x31, 0x72, 0x34, 0x74, 0x38]) ∧
    (runGhEncode 0 0 13 State.reset).map Prod.snd = some (.failed 0xA) := by decide +kernel

/-- What `GH.DECODE` gives its caller: the examples of 41_decode_path.md R153 (`dqcjq`) and 60_exceptions.md R181
(`dacjq`), and a string GHIL refuses. -/
theorem test_run_gh_decode :
    (runGhDecode [0x64, 0x71, 0x63, 0x6A, 0x71] State.reset).map Prod.snd =
      some (.lanes 0x49300000 0xB7500000 0x00050C0D) ∧
    (runGhDecode [0x64, 0x61, 0x63, 0x6A, 0x71] State.reset).map Prod.snd = some (.invalidCharacter 1 0x61) ∧
    (runGhDecode [] State.reset).map Prod.snd = some (.failed 0xA) := by decide +kernel

/-- P2: the lane steps of the document's scenarios 4 and 5; T140: the wrap at the date line. -/
theorem test_neighbor_lanes :
    stepLat 0xB7500000 5 1 = some 0xB7600000#32 ∧ stepLat 0xB7500000 5 (-1) = some 0xB7400000#32 ∧
    stepLon 0x49300000 5 (-1) = 0x49280000#32 ∧ stepLon 0xFFF80000 5 1 = 0#32 := by decide +kernel

/-- T137: the lanes of the document's first scenario, quantised to 32 bits. -/
theorem test_quantise :
    quantise (1125584 / 10000) (-180) 180 32 = some 0xD00AA1A3#32 ∧
    quantise (378324 / 10000) (-90) 90 32 = some 0xB5CE5B42#32 := by decide +kernel

/-- T138: the midpoint of a longitude cell. -/
theorem test_midpoint : cellMidpoint 0x49300000 (-180) 180 13 = -7705810546875 / 100000000000 := by decide +kernel

/-! ### Witnesses: states and operands that meet the hypotheses of each statement of Certificates/Slice0/Obligations.lean

A hypothesis `s.pending = a :: rest` is met by `withAction s a`, by `rfl`. The strings `dqcjq`, `dacjq` are those of
60_exceptions.md R181 and 41_decode_path.md R151. -/

/-- The string `dqcjq` in `CH`, padding beyond it. -/
def goodString : State := stateOf 0x11111111 0x22222222 0x6A637164 0x71 0 0x1F1F1F1F 0x1F1F1F1F 0x1F1F1F1F

/-- The string `dacjq` in `CH`: cell 1 is outside the alphabet. -/
def badString : State := stateOf 0x11111111 0x22222222 0x6A636164 0x71 0 0 0 0

/-- Twelve cells, only the last outside the alphabet. -/
def badLast : State := stateOf 0 0 0x7A7A7A7A 0x7A7A7A7A 0x417A7A7A 0 0 0

theorem legal_ends : Legal 1#4 ∧ Legal 12#4 ∧ ¬ Legal 0#4 ∧ ¬ Legal 13#4 := by unfold Legal; decide

theorem goodString_valid : ValidCells goodString.ch 5 := (firstInvalid_eq_none_iff _ _).mp (by decide)

theorem witness_DecodeOfEncodeIsIdentity : (Instr.decode 12#4).wellFormed = true ∧ (Instr.pack 1#4).wellFormed = true := by
  decide

theorem witness_EncodeOfDecodeIsIdentity : decode 0xC0B#32 = .ok (.decode 12#4) := by rfl

/-- A legal word, and one of each kind that is not. -/
theorem witness_LegalWordsAreSeventyFive :
    verdict 0xC0B#32 = .command (.decode 12#4) ∧ verdict 0x3#32 = .illegalCommand ∧
      verdict 0xD0B#32 = .invalidPrecision := by decide

/-- Each clause: the ends of both reserved fields, each reserved `op`, each control `op` with the ends of `len`. -/
theorem witness_IllegalCommandIsReported :
    ([0x1000#32, 0x80000000#32].all fun w => decide (w.extractLsb' 12 20 ≠ 0)) = true ∧
    ([0x10#32, 0x80#32].all fun w => decide (w.extractLsb' 4 4 ≠ 0)) = true ∧
    ([0x3#32, 0x4#32, 0x8#32, 0xC#32, 0xD#32, 0xE#32, 0xF#32].all fun w =>
      decide (w.extractLsb' 0 4 ∈ [0b0011#4, 0b0100#4, 0b1000#4, 0b1100#4, 0b1101#4, 0b1110#4, 0b1111#4])) = true ∧
    ([0x100#32, 0xF00#32, 0x101#32, 0xF01#32, 0x102#32, 0xF02#32].all fun w =>
      decide (w.extractLsb' 0 4 ∈ [0b0000#4, 0b0001#4, 0b0010#4] ∧ w.extractLsb' 8 4 ≠ 0)) = true := by decide

/-- Each data command at each illegal precision. -/
theorem witness_InvalidPrecisionIsReported :
    ([0x5#32, 0x6#32, 0x7#32, 0x9#32, 0xA#32, 0xB#32].all fun op => [0x0#32, 0xD00#32, 0xE00#32, 0xF00#32].all fun l =>
      decide ((l ||| op).extractLsb' 12 20 = 0 ∧ (l ||| op).extractLsb' 4 4 = 0 ∧
        (l ||| op).extractLsb' 0 4 ∈ [0b0101#4, 0b0110#4, 0b0111#4, 0b1001#4, 0b1010#4, 0b1011#4] ∧
        (l ||| op).extractLsb' 8 4 ∈ [0#4, 13#4, 14#4, 15#4])) = true := by decide

theorem witness_StepRunsDecodedCommand :
    (withAction goodString (.write .bits32 0x00 0x50B)).pending = [.write .bits32 0x00 0x50B#32] ∧
      decode 0x50B#32 = .ok (.decode 5#4) := ⟨rfl, rfl⟩

/-- Each cause of a refusal, by a read and by a write. -/
theorem witness_RefusedAccessChangesNothing :
    (withAction goodString (.read .bits64 0x08)).pending = [.read .bits64 0x08] ∧ AccessSize.bits64 ≠ .bits32 ∧
    (withAction goodString (.write .bits32 0x3F 7)).pending = [.write .bits32 0x3F 7] ∧
      (0x3F : Offset).val % 4 ≠ 0 ∧ (0x01 : Offset).val % 4 ≠ 0 ∧
    ([0x14, 0x18, 0x1C, 0x2C, 0x3C] : List Offset).all (fun off =>
      decide (off.val ∈ [0x14, 0x18, 0x1C, 0x2C, 0x3C])) = true := by decide

/-- Each clause: the reserved offsets, each register, and the first and last byte of each buffer. -/
theorem witness_BusReadReturnsRegister :
    (withAction goodString (.read .bits32 0x38)).pending = [.read .bits32 0x38] ∧
    ([0x00, 0x04, 0x08, 0x0C, 0x10, 0x20, 0x24, 0x28, 0x30, 0x34, 0x38] : List Offset).all (fun off =>
      decide (off.val % 4 = 0 ∧ off.val ∉ [0x14, 0x18, 0x1C, 0x2C, 0x3C])) = true ∧
    (0x3C : Offset).val % 4 = 0 ∧
    (0x20 : Offset).val = 0x20 + 4 * (0 : Fin 3).val ∧ (0 : Fin 12).val = 4 * (0 : Fin 3).val + (0 : Fin 4).val ∧
    (0x28 : Offset).val = 0x20 + 4 * (2 : Fin 3).val ∧ (0x38 : Offset).val = 0x30 + 4 * (2 : Fin 3).val ∧
    (11 : Fin 12).val = 4 * (2 : Fin 3).val + (3 : Fin 4).val := by decide

/-- Each clause: a command, a word that is none, both read-only registers, both lanes, the first and last word of each
buffer, a reserved offset. -/
theorem witness_BusWriteTakesEffect :
    (withAction goodString (.write .bits32 0x00 0x50B)).pending = [.write .bits32 0x00 0x50B#32] ∧
    decode 0x50B#32 = .ok (.decode 5#4) ∧ decode 0x3#32 = .error .reservedOp ∧
    ([0x04, 0x10, 0x08, 0x0C, 0x20, 0x28, 0x30, 0x38, 0x3C] : List Offset).all (fun off =>
      decide (off.val % 4 = 0)) = true ∧
    (0x20 : Offset).val = 0x20 + 4 * (0 : Fin 3).val ∧ (0x28 : Offset).val = 0x20 + 4 * (2 : Fin 3).val ∧
    (0x30 : Offset).val = 0x30 + 4 * (0 : Fin 3).val ∧ (0x38 : Offset).val = 0x30 + 4 * (2 : Fin 3).val :=
  ⟨rfl, rfl, rfl, by decide, by decide, by decide, by decide, by decide⟩

/-- Both clauses at their last register. -/
theorem witness_ReadAfterWriteReturnsWord :
    ({ goodString with pending := [.write .bits32 (offsetOf (.chw 2)) 7, .read .bits32 (offsetOf (.chw 2))] } : State).pending
      = .write .bits32 (offsetOf (.chw 2)) 7 :: .read .bits32 (offsetOf (.chw 2)) :: [] ∧
    (∃ n, Reg.chw 2 = .chw n) ∧ (∃ n, Reg.syw 2 = .syw n) := ⟨rfl, ⟨2, rfl⟩, ⟨2, rfl⟩⟩

/-- Two equal writes in a row, and two equal reads. -/
theorem witness_DataAccessesAreIdempotent :
    (∃ t u, step { goodString with pending := [scriptWrite (.syw 2) 7, scriptWrite (.syw 2) 7] } = .next t ∧
      step t = .next u ∧ Reg.syw 2 ≠ .cmd) ∧
    (∃ t u, step { goodString with pending := [scriptRead .lon, scriptRead .lon] } = .next t ∧ step t = .next u) :=
  ⟨⟨_, _, rfl, rfl, by decide⟩, ⟨_, _, rfl, rfl⟩⟩

/-- The hypotheses of CLEAR's and CLRERR's second and third clauses. -/
theorem witness_ClearZeroesDataState :
    ∃ t t', exec .clear faultedState = .next t ∧ exec .clrerr faultedState = .next t' := ⟨_, _, rfl, rfl⟩

theorem witness_ClrerrAcknowledges :
    (∃ t, writeReg faultedState 0x2 .cmd = .next t ∧ faultedState.status.serr = true ∧ t.status.serr = false) ∧
      1#4 ≠ 0#4 := ⟨⟨_, rfl, rfl, rfl⟩, by decide⟩

/-- `Legal` for PACK, MAP, ENCODE and UNPACK. -/
theorem witness_PackInterleavesLanes : Legal 12#4 := legal_ends.2.1
theorem witness_MapWritesCharacters : Legal 1#4 := legal_ends.1
theorem witness_EncodeWritesString : Legal 12#4 := legal_ends.2.1
theorem witness_UnpackSplitsStream : Legal 1#4 := legal_ends.1

/-- A valid string, a bad cell inside one, and a bad last cell: the clauses of LOOKUP and DECODE. -/
theorem witness_LookupRecoversSymbols :
    Legal 5#4 ∧ ValidCells goodString.ch (5#4).toNat ∧ FirstBad badString.ch (5#4).toNat 1 :=
  ⟨by unfold Legal; decide, goodString_valid, (firstInvalid_eq_some_iff _ _ _).mp (by decide)⟩

theorem witness_DecodeRecoversLanes :
    Legal 12#4 ∧ ValidCells (mapCells goodString.sym 12) (12#4).toNat ∧ FirstBad badLast.ch (12#4).toNat 11 :=
  ⟨legal_ends.2.1, validCells_mapCells _ _, (firstInvalid_eq_some_iff _ _ _).mp (by decide)⟩

theorem witness_InvalidCharacterIsReported :
    Legal 5#4 ∧ ∃ k : Fin 12, k.val < (5#4).toNat ∧ ¬ InAlphabet badString.ch[k] :=
  ⟨by unfold Legal; decide, 1, by decide, inv_eq_none_iff.mp (by decide)⟩

theorem witness_RejectionIsExact : Legal 12#4 ∧ Instr.decode 12#4 = .decode 12#4 := ⟨legal_ends.2.1, rfl⟩

theorem witness_CommandsWriteOnlyTheirOutputs :
    ∃ t, exec (.lookup 5) faultedState = .next t ∧ Instr.lookup 5 ≠ .clrerr ∧ faultedState.status.serr = true :=
  ⟨_, rfl, by decide, rfl⟩

/-- A fault of each code. -/
theorem witness_FaultsArePrecise :
    (∃ t, runWord badString 0x50B = .next t ∧ t.status.err ≠ 0#3) ∧
    (∃ t, runWord goodString 0xD0B = .next t ∧ t.status.err ≠ 0#3) ∧
    (∃ t, runWord goodString 0x3 = .next t ∧ t.status.err ≠ 0#3) :=
  ⟨⟨_, rfl, by decide⟩, ⟨_, rfl, by decide⟩, ⟨_, rfl, by decide⟩⟩

theorem witness_SerrTracksFaults :
    (∃ t, runWord faultedState 0x2 = .next t) ∧ (∃ t, runWord badString 0x50B = .next t) := ⟨⟨_, rfl⟩, ⟨_, rfl⟩⟩

/-- Both ways to clear `SERR`. -/
theorem witness_OnlyClrerrAndResetClearSerr :
    (∃ t, step (withAction faultedState (.write .bits32 0x00 0x2)) = .next t ∧ t.status.serr = false) ∧
    (∃ t, step (withAction faultedState .reset) = .next t ∧ t.status.serr = false) ∧
    faultedState.status.serr = true := ⟨⟨_, rfl, rfl⟩, ⟨_, rfl, rfl⟩, rfl⟩

/-- A change of each element of the state, and a step with nothing to do. -/
theorem witness_StateElementsHaveTheirWriters :
    (∃ t, step goodString = .next t ∧ goodString.pending = []) ∧
    (∃ t, step (withAction goodString (.write .bits32 0x00 0x50B)) = .next t ∧ t.lon ≠ goodString.lon ∧
      t.lat ≠ goodString.lat ∧ t.sym ≠ goodString.sym ∧ t.nbits ≠ goodString.nbits) ∧
    (∃ t, step (withAction goodString (.write .bits32 0x20 0x7)) = .next t ∧ t.ch ≠ goodString.ch) ∧
    (∃ t, step (withAction goodString (.write .bits32 0x00 0x3)) = .next t ∧ t.status ≠ goodString.status) :=
  ⟨⟨_, rfl, rfl⟩, ⟨_, rfl, by decide, by decide, by decide, by decide⟩, ⟨_, rfl, by decide⟩, ⟨_, rfl, by decide⟩⟩

/-- Two states that agree on the cells read and differ in the others, in the lanes and in `STATUS`. -/
theorem witness_ResultsDependOnInputsOnly :
    (Instr.decode 5#4).wellFormed = true ∧
    SameInputs (.decode 5#4) goodString
      { faultedState with ch := setChWord (setChWord goodString.ch 2 0x41414141) 1 0x61616171 } := by
  refine ⟨by decide, ?_⟩
  unfold SameInputs
  decide

theorem witness_MapIsElementwise :
    Legal 12#4 ∧ goodString.sym[(11 : Fin 12)] = goodString.sym[(11 : Fin 12)] ∧ (11 : Fin 12).val < (12#4).toNat ∧
      Legal 1#4 ∧ (1#4).toNat ≤ (1 : Fin 12).val := ⟨legal_ends.2.1, rfl, by decide, legal_ends.1, by decide⟩

/-- A success, and a fault at the last cell. -/
theorem witness_LookupIsElementwise :
    (∃ t, exec (.lookup 5) goodString = .next t ∧ t.status.err = 0#3) ∧
    (∃ t, exec (.lookup 12) badLast = .next t ∧ t.status.err ≠ 0#3) := ⟨⟨_, rfl, rfl⟩, ⟨_, rfl, by decide⟩⟩

theorem witness_LookupThenUnpackIsDecode :
    (∃ t, exec (.lookup 5) goodString = .next t ∧ t.status.err = 0#3) ∧
    (∃ t, exec (.lookup 5) badString = .next t ∧ t.status.err ≠ 0#3) := ⟨⟨_, rfl, rfl⟩, ⟨_, rfl, by decide⟩⟩

theorem witness_EncodeAfterDecodeReproducesString :
    Legal 5#4 ∧ ∃ t, exec (.decode 5) goodString = .next t ∧ t.status.err = 0#3 :=
  ⟨by unfold Legal; decide, _, rfl, rfl⟩

theorem witness_DecodeAfterEncodeReproducesLanes : Legal 12#4 ∧ ∃ t, exec (.encode 12) goodString = .next t :=
  ⟨legal_ends.2.1, _, rfl⟩

theorem witness_StagesInvertEachOther :
    Legal 5#4 ∧ (∃ t, exec (.pack 5) goodString = .next t) ∧ (∃ t, exec (.unpack 5) goodString = .next t) ∧
      (∃ t, exec (.map 5) goodString = .next t) ∧
      (∃ t, exec (.lookup 5) goodString = .next t ∧ t.status.err = 0#3) :=
  ⟨by unfold Legal; decide, ⟨_, rfl⟩, ⟨_, rfl⟩, ⟨_, rfl⟩, ⟨_, rfl, rfl⟩⟩

theorem witness_OutputIsOverTheAlphabet : Legal 12#4 ∧ Instr.encode 12#4 = .encode 12#4 := ⟨legal_ends.2.1, rfl⟩

theorem witness_EncodeHasPrefixProperty :
    Legal 12#4 ∧ Legal 11#4 ∧ (11#4).toNat < (12#4).toNat ∧ (10 : Fin 12).val < (11#4).toNat := by unfold Legal; decide

theorem witness_StringDeterminesUsedBits : Legal 12#4 := legal_ends.2.1

theorem witness_InverseTableIsExact : inv 0x7A#8 = some 31#5 ∧ inv 0x30#8 = some 0#5 ∧ inv 0x41#8 = none := by decide

theorem witness_SerialPackEqualsClosedForm : 12 ≤ 12 ∧ (11 : Fin 12).val < 12 := by decide
theorem witness_SerialUnpackEqualsClosedForm : 12 ≤ 12 := by decide

theorem witness_ResetZeroesState : (withAction faultedState .reset).pending = .reset :: [] := rfl

/-- The reset state, and a state with a fault report, have the invariant, and each answers a next state. -/
theorem witness_StepKeepsReportAndCountsLegal :
    (State.reset.Inv ∧ ∃ t, step State.reset = .next t) ∧
    (∃ s : State, s.status.err = 1#3 ∧ s.Inv ∧ ∃ t, step s = .next t) :=
  ⟨⟨⟨⟨by decide, by decide, by decide, by decide⟩, .inl rfl⟩, _, rfl⟩,
    ⟨faultedState, rfl, ⟨⟨by decide, by decide, by decide, by decide⟩, .inl rfl⟩, _, rfl⟩⟩

theorem witness_GhEncodeScriptProducesString :
    Legal 9#4 ∧ ({ goodString with pending := ghEncode 0xD00AA1A3 0xB5CE5B42 9 } : State).pending =
      ghEncode 0xD00AA1A3 0xB5CE5B42 9 ++ [] := ⟨by unfold Legal; decide, rfl⟩

/-- Both clauses, at the ends of the range. -/
theorem witness_GhEncodeGivesString : Legal 1#4 ∧ Legal 12#4 ∧ ¬ Legal 0#4 ∧ ¬ Legal 13#4 := legal_ends

/-- A string over the alphabet, and one whose last of twelve characters is outside it. -/
theorem witness_GhDecodeGivesLanesOrOffender :
    (1 ≤ [0x7A#8].length ∧ [0x7A#8].length ≤ 12 ∧ ∀ x ∈ [0x7A#8], InAlphabet x) ∧
    ((List.replicate 11 0x7A#8 ++ [0x41#8]).length = 12 ∧
      (List.replicate 11 0x7A#8 ++ [0x41#8])[11]? = some 0x41#8 ∧ ¬ InAlphabet 0x41#8 ∧
      ∀ y ∈ (List.replicate 11 0x7A#8 ++ [0x41#8]).take 11, InAlphabet y) := by
  have hz : InAlphabet 0x7A#8 := inAlphabet_iff.mpr ⟨31, by decide⟩
  exact ⟨⟨by decide, by decide, fun x hx => List.mem_singleton.mp hx ▸ hz⟩, rfl, rfl, inv_eq_none_iff.mp (by decide),
    fun y hy => (List.eq_of_mem_replicate (n := 11) hy).symm ▸ hz⟩

/-- A latitude step that stays, the last that stays, and one past the pole. -/
theorem witness_LaneStepsMoveCells :
    1 ≤ 12 ∧ 12 ≤ 12 ∧ stepLat 0xB7500000 5 1 = some 0xB7600000#32 ∧ (stepLat 0xFFE00000 5 1).isSome = true ∧
      stepLat 0xFFF00000 5 1 = none := by decide +kernel

/-- Each clause: the low end, the upper end, both sides outside. -/
theorem witness_QuantisedCellContainsCoordinate :
    (-180 : Rat) < 180 ∧ 32 ≤ 32 ∧ (-180 : Rat) ≤ -180 ∧ (180 : Rat) = 180 ∧ (-181 : Rat) < -180 ∧ (180 : Rat) < 181 := by
  norm_num

end Sys2Proof.Tests
end

section
/-! PROOFS. The statements of 00_scope.md: every step answers (R10), the lane arithmetic of a neighbour step (R21), and
the cell of a quantised coordinate (R18 to R20). -/

namespace Sys2Proof.Machine

/-! ### A step takes one host action -/

/-- Whatever a step does, it takes the head of the queue and leaves the rest (20_memory.md R80). -/
theorem stepEffect_pending {s t : State} (h : StepEffect s t) : t.pending = s.pending.tail := by
  cases h with
  | idle hp => simp [hp]
  | reset hp => simp [hp]
  | read hp => simp [hp]
  | readRefused hp => simp [hp]
  | write hp he => simp [hp, (write_pending he).1]
  | writeRefused hp => simp [hp]

/-- Settles O8: `step_effect` gives the next state, and each of its cases takes exactly the head of the queue. -/
theorem stepAlwaysAnswers : Obligations.StepAlwaysAnswers := by
  intro s
  obtain ⟨t, ht, he⟩ := step_effect s
  exact ⟨t, ht, stepEffect_pending he⟩

/-! ### Neighbour steps on a lane -/

/-- A lane moved by `d` cells of `n` used bits, in the arithmetic of the lane register (00_scope.md R21): what both
axes of a neighbour step do. -/
def shiftLane (lane : Word) (n : Nat) (d : Int) : Word := BitVec.ofInt 32 (lane.toNat + d * laneUnit n)

theorem stepLon_eq_shiftLane (lon : Word) (p : Nat) (d : Int) : stepLon lon p d = shiftLane lon (nlonOf p) d := rfl

/-- A latitude step that stays between the poles. -/
theorem stepLat_of_inRange {lat : Word} {p : Nat} {d : Int}
    (h : 0 ≤ (cellOfLane lat (nlatOf p) : Int) + d ∧ (cellOfLane lat (nlatOf p) : Int) + d < 2 ^ nlatOf p) :
    stepLat lat p d = some (shiftLane lat (nlatOf p) d) := if_pos h

/-- A latitude step past a pole. -/
theorem stepLat_eq_none_iff (lat : Word) (p : Nat) (d : Int) :
    stepLat lat p d = none ↔ ¬ (0 ≤ (cellOfLane lat (nlatOf p) : Int) + d ∧
      (cellOfLane lat (nlatOf p) : Int) + d < 2 ^ nlatOf p) := by
  simp [stepLat]

/-- Shifting is adding a word to the lane, modulo `2^32`. -/
theorem shiftLane_eq_add (lane : Word) (n : Nat) (d : Int) :
    shiftLane lane n d = lane + BitVec.ofInt 32 (d * laneUnit n) := by
  rw [shiftLane, BitVec.ofInt_add, BitVec.ofInt_natCast, BitVec.ofNat_toNat, BitVec.setWidth_eq]

/-- A shift is undone by its opposite, whether or not it wrapped (93 U6). -/
theorem shiftLane_shiftLane_neg (lane : Word) (n : Nat) (d : Int) : shiftLane (shiftLane lane n d) n (-d) = lane := by
  rw [shiftLane_eq_add, shiftLane_eq_add, Int.neg_mul, BitVec.ofInt_neg, ← BitVec.sub_eq_add_neg, BitVec.add_sub_cancel]

/-- Dropping the low `u` units of a number and reducing the rest commute. -/
theorem emod_mul_ediv {u : Int} (hu : 0 < u) (a m : Int) : a % (u * m) / u = a / u % m := by
  rw [Int.emod_def, Int.emod_def, mul_assoc, Int.sub_mul_ediv_left _ _ hu.ne', Int.ediv_ediv_of_nonneg hu.le]

/-- A shift by `d` cells moves the cell by `d`, modulo the number of cells: the bits below the cell are a whole unit and
take no part. -/
theorem cellOfLane_shiftLane (lane : Word) {n : Nat} (hn : n ≤ 32) (d : Int) :
    (cellOfLane (shiftLane lane n d) n : Int) = (cellOfLane lane n + d) % 2 ^ n := by
  have hu : (0 : Int) < laneUnit n := by unfold laneUnit; positivity
  have hsplit : (2 : Int) ^ 32 = laneUnit n * 2 ^ n := by rw [laneUnit, ← pow_add, Nat.sub_add_cancel hn]
  have hword : ((shiftLane lane n d).toNat : Int) = (lane.toNat + d * laneUnit n) % 2 ^ 32 := by
    rw [shiftLane, BitVec.toNat_ofInt, Int.toNat_of_nonneg (Int.emod_nonneg _ (by decide))]
    norm_num
  have hcell (w : Word) : (cellOfLane w n : Int) = w.toNat / laneUnit n := by simp [cellOfLane, laneUnit]
  rw [hcell, hcell, hword, hsplit, emod_mul_ediv hu, Int.add_mul_ediv_right _ _ hu.ne']

theorem cellOfLane_lt (lane : Word) {n : Nat} (hn : n ≤ 32) : cellOfLane lane n < 2 ^ n := by
  rw [cellOfLane, Nat.div_lt_iff_lt_mul (by positivity), ← pow_add, Nat.add_sub_cancel' hn]
  exact lane.isLt

/-- A latitude step that has a meaning moves the cell by `d`, with no wrap, and its opposite brings the lane back. -/
theorem stepLat_some {lat lat' : Word} {p : Nat} {d : Int} (hn : nlatOf p ≤ 32) (h : stepLat lat p d = some lat') :
    (cellOfLane lat' (nlatOf p) : Int) = cellOfLane lat (nlatOf p) + d ∧ stepLat lat' p (-d) = some lat := by
  have hr := (stepLat_eq_none_iff lat p d).not_left.mp (by simp [h])
  obtain rfl : shiftLane lat (nlatOf p) d = lat' := Option.some.inj ((stepLat_of_inRange hr).symm.trans h)
  have hcell : (cellOfLane (shiftLane lat (nlatOf p) d) (nlatOf p) : Int) = cellOfLane lat (nlatOf p) + d := by
    rw [cellOfLane_shiftLane lat hn, Int.emod_eq_of_lt hr.1 hr.2]
  have hlt : (cellOfLane lat (nlatOf p) : Int) < 2 ^ nlatOf p := by exact_mod_cast cellOfLane_lt lat hn
  refine ⟨hcell, ?_⟩
  rw [stepLat_of_inRange (by rw [hcell]; constructor <;> omega), shiftLane_shiftLane_neg]

/-- Settles O50: both axes are one shift of the lane; the longitude wraps with the register, the latitude is refused
exactly where it would. -/
theorem laneStepsMoveCells : Obligations.LaneStepsMoveCells := by
  intro lane p d _ hp
  have hlon : nlonOf p ≤ 32 := by simp only [nlonOf, Config.symw]; omega
  have hlat : nlatOf p ≤ 32 := by simp only [nlatOf, Config.symw]; omega
  simp only [stepLon_eq_shiftLane]
  exact ⟨⟨cellOfLane_shiftLane lane hlon d, shiftLane_shiftLane_neg lane _ d⟩, fun _ h => stepLat_some hlat h,
    stepLat_eq_none_iff lane p d⟩

/-! ### The cell of a quantised coordinate -/

theorem bitsValue_cons (b : Bool) (bs : List Bool) : bitsValue (b :: bs) = b.toNat * 2 ^ bs.length + bitsValue bs := by
  induction bs using List.reverseRecOn with
  | nil => simp [bitsValue]
  | append_singleton bs c ih =>
    rw [← List.cons_append, bitsValue_append, bitsValue_append, ih, List.length_append, List.length_singleton]
    ring

/-- One halving, by the side of the midpoint `x` is on (00_scope.md R18). -/
theorem bitsValue_quantiseBits_succ (x lo hi : Rat) (n : Nat) :
    bitsValue (quantiseBits x lo hi (n + 1)) =
      if (lo + hi) / 2 ≤ x then 2 ^ n + bitsValue (quantiseBits x ((lo + hi) / 2) hi n)
      else bitsValue (quantiseBits x lo ((lo + hi) / 2) n) := by
  rw [quantiseBits]
  split <;> simp [bitsValue_cons, length_quantiseBits]

/-- The cells of the two halves of a range are as wide as those of the range with one bit more. -/
theorem cellSpan_halves (lo hi : Rat) (n : Nat) :
    cellSpan lo ((lo + hi) / 2) n = cellSpan lo hi (n + 1) ∧ cellSpan ((lo + hi) / 2) hi n = cellSpan lo hi (n + 1) := by
  unfold cellSpan
  constructor <;> field_simp <;> ring

/-- The upper half begins `2^n` cells above the low end. -/
theorem two_pow_mul_cellSpan (lo hi : Rat) (n : Nat) : lo + 2 ^ n * cellSpan lo hi (n + 1) = (lo + hi) / 2 := by
  unfold cellSpan
  field_simp
  ring

/-- The invariant of the halving loop: the cell that the bits number holds the coordinate. -/
theorem quantiseBits_cell_contains (x : Rat) (n : Nat) : ∀ lo hi, lo ≤ x → x < hi →
    lo + bitsValue (quantiseBits x lo hi n) * cellSpan lo hi n ≤ x ∧
      x < lo + bitsValue (quantiseBits x lo hi n) * cellSpan lo hi n + cellSpan lo hi n := by
  induction n with
  | zero => intro lo hi hlo hhi; simpa [quantiseBits, bitsValue, cellSpan] using ⟨hlo, hhi⟩
  | succ n ih =>
    intro lo hi hlo hhi
    obtain ⟨hlower, hupper⟩ := cellSpan_halves lo hi n
    rw [bitsValue_quantiseBits_succ]
    split
    next hmid =>
      push_cast
      rw [add_mul, ← add_assoc, two_pow_mul_cellSpan, ← hupper]
      exact ih _ hi hmid hhi
    next hmid =>
      rw [← hlower]
      exact ih lo _ hlo (not_le.mp hmid)

/-- At the upper end every halving takes the upper half (00_scope.md R20 (c)). -/
theorem bitsValue_quantiseBits_top (hi : Rat) (n : Nat) : ∀ lo, lo ≤ hi →
    bitsValue (quantiseBits hi lo hi n) = 2 ^ n - 1 := by
  induction n with
  | zero => intro lo _; rfl
  | succ n ih =>
    intro lo h
    rw [bitsValue_quantiseBits_succ, if_pos (by linarith), ih _ (by linarith), pow_succ]
    have := Nat.one_le_two_pow (n := n)
    omega

theorem cellOfLane_quantiseBits (x lo hi : Rat) {n : Nat} (hn : n ≤ 32) :
    cellOfLane (laneOfBits (quantiseBits x lo hi n)) n = bitsValue (quantiseBits x lo hi n) := by
  have h := cellOfLane_laneOfBits (quantiseBits x lo hi n)
  rw [length_quantiseBits] at h
  exact h hn

/-- Settles O51: the loop's invariant for a coordinate inside the range, the topmost cell at its upper end, and the guard
of `quantise` outside. -/
theorem quantisedCellContainsCoordinate : Obligations.QuantisedCellContainsCoordinate := by
  intro x lo hi n hrange hn
  refine ⟨fun hlo hhi => ⟨_, if_pos ⟨hlo, hhi.le⟩, ?_⟩, ?_, ?_⟩
  · rw [cellLow, cellOfLane_quantiseBits x lo hi hn]
    exact quantiseBits_cell_contains x n lo hi hlo hhi
  · rintro rfl
    refine ⟨_, if_pos ⟨hrange.le, le_rfl⟩, ?_⟩
    rw [cellOfLane_quantiseBits x lo x hn, bitsValue_quantiseBits_top x n lo hrange.le]
  · rintro (h | h)
    · exact if_neg fun hin => absurd h (not_lt.mpr hin.1)
    · exact if_neg fun hin => absurd h (not_lt.mpr hin.2)

end Sys2Proof.Machine
end

section
/-! PROOFS. The statements of 10_state.md: the report and the counts stay legal (R45, R46), what each command leaves as
it was (R48), what sets and clears `SERR` (R45), the writers of each element, the tables (R34 to R37) and reset (R62). -/

namespace Sys2Proof.Machine

/-! ### The legal reports and counts -/

/-- The report of this fault is one the spec can produce: an offending cell is outside the alphabet (60_exceptions.md
R181). -/
def CmdFault.Fits : CmdFault → Prop
  | .invalidCharacter _ c => ¬ InAlphabet c
  | .invalidPrecision => True
  | .illegalCommand => True

theorem Status.inv_zero : Status.zero.Inv := by simp [Status.Inv, Status.zero]

theorem Status.inv_success (st : Status) : st.success.Inv := by simp [Status.Inv]

theorem CmdFault.code_ne_zero (f : CmdFault) : f.code ≠ 0#3 := by cases f <;> simp [CmdFault.code]

theorem Status.inv_faulted {f : CmdFault} (h : f.Fits) : (Status.faulted f).Inv := by
  cases f with
  | invalidCharacter k c =>
    have hk : k.val < 12 := k.isLt
    have hidx : k.val % 16 < Config.ncell := by rw [Nat.mod_eq_of_lt (by omega)]; exact hk
    simp [Status.Inv, CmdFault.code, CmdFault.eidx, CmdFault.ech, hidx, inv_eq_none_iff.mpr h]
  | invalidPrecision => simp [Status.Inv, CmdFault.code, CmdFault.eidx, CmdFault.ech]
  | illegalCommand => simp [Status.Inv, CmdFault.code, CmdFault.eidx, CmdFault.ech]

theorem NBits.inv_ofPrecision {len : BitVec 4} (h : Legal len) : (NBits.ofPrecision len.toNat).Inv :=
  .inr ⟨_, h.1, h.2, rfl⟩

/-! ### What a command does to `STATUS` and `NBITS` -/

/-- `STATUS` after a command: acknowledged by CLRERR alone, else the report of a success or of a fault. -/
theorem effect_status {s t : State} {i : Instr} (h : Effect s i t) :
    (i = .clrerr ∧ t.status = Status.zero) ∨
      (i ≠ .clrerr ∧ (t.status = s.status.success ∨ ∃ f : CmdFault, f.Fits ∧ t.status = Status.faulted f)) := by
  cases h with
  | clrerr => exact .inl ⟨rfl, rfl⟩
  | lookupBad _ hk | decodeBad _ hk => exact .inr ⟨nofun, .inr ⟨.invalidCharacter _ _, hk.2.1, rfl⟩⟩
  | precision hw =>
    have hne : i ≠ .clrerr := by rintro rfl; cases hw
    exact .inr ⟨hne, .inr ⟨.invalidPrecision, trivial, rfl⟩⟩
  | _ => exact .inr ⟨nofun, .inl rfl⟩

/-- `NBITS` after a command (10_state.md R46): kept, zeroed by CLEAR, or the counts of a legal precision. -/
theorem effect_nbits {s t : State} {i : Instr} (h : Effect s i t) :
    t.nbits = s.nbits ∨ t.nbits = NBits.zero ∨ ∃ len, Legal len ∧ t.nbits = NBits.ofPrecision len.toNat := by
  cases h with
  | clear => exact .inr (.inl rfl)
  | pack hl | map hl | encode hl | lookup hl | unpack hl | decode hl => exact .inr (.inr ⟨_, hl, rfl⟩)
  | _ => exact .inl rfl

/-! ### The invariant -/

theorem effect_inv {s t : State} {i : Instr} (hs : s.Inv) (h : Effect s i t) : t.Inv := by
  constructor
  · obtain ⟨-, hz⟩ | ⟨-, hok | ⟨f, hf, hfault⟩⟩ := effect_status h
    · exact hz ▸ Status.inv_zero
    · exact hok ▸ s.status.inv_success
    · exact hfault ▸ Status.inv_faulted hf
  · obtain hk | hz | ⟨len, hl, hc⟩ := effect_nbits h
    · exact hk ▸ hs.2
    · exact .inl hz
    · exact hc ▸ NBits.inv_ofPrecision hl

/-- Of all writes, only one to `CMD` reaches the read-only registers. -/
theorem writeEffect_inv {s t : State} {w : Word} {r : Reg} (hs : s.Inv) (h : WriteEffect s w r t) : t.Inv := by
  cases h with
  | command _ he => exact effect_inv hs he
  | illegal => exact ⟨Status.inv_faulted (f := .illegalCommand) trivial, hs.2⟩
  | _ => exact hs

/-- Settles O46: the zero report and the zero counts are legal. -/
theorem resetHasLegalReportAndCounts : Obligations.ResetHasLegalReportAndCounts := ⟨Status.inv_zero, .inl rfl⟩

/-- Settles O45: a step writes the read-only registers by a reset or through `CMD` only, and every command leaves a
legal report and legal counts. -/
theorem stepKeepsReportAndCountsLegal : Obligations.StepKeepsReportAndCountsLegal := by
  intro s t hs h
  cases effect_of_step h with
  | reset => exact resetHasLegalReportAndCounts
  | write _ he =>
    refine writeEffect_inv ?_ he
    exact hs
  | _ => exact hs

/-! ### The frame of a command -/

/-- A command that only reports leaves all that Table W lets it leave. -/
theorem untouched_takeFault (i : Instr) (s : State) (f : CmdFault) : Untouched i s (s.takeFault f) := by
  cases i <;> simp [Untouched]

/-- 10_state.md R48 Table W, for every command that succeeds or faults. -/
theorem effect_untouched {s t : State} {i : Instr} (h : Effect s i t) : Untouched i s t := by
  cases h with
  | lookupBad | decodeBad | precision => exact untouched_takeFault _ s _
  | _ => simp [Untouched]

/-- Settles O25: the frame by the cases of a command's effect, `SERR` by the report it leaves. -/
theorem commandsWriteOnlyTheirOutputs : Obligations.CommandsWriteOnlyTheirOutputs := by
  intro i s t h
  have he := effect_of_exec h
  obtain ⟨hpending, hresponse⟩ := effect_pending he
  refine ⟨effect_untouched he, hpending, hresponse, fun hi hserr => ?_⟩
  obtain ⟨hc, -⟩ | ⟨-, hok | ⟨f, -, hfault⟩⟩ := effect_status he
  · exact absurd hc hi
  · rw [hok, success_serr, hserr]
  · rw [hfault, faulted_serr]

/-! ### The sticky bit -/

/-- No bit of a word that decodes is ignored (30_encoding.md R107). -/
theorem encode_of_decode_ok {w : Word} {i : Instr} (h : decode w = .ok i) : encode i = w := by
  unfold decode at h
  split at h
  next hclear =>
    obtain ⟨hop, hlen⟩ := decodeOp_ok h
    obtain ⟨hopE, hlenE, hclearE⟩ := encode_fields i
    obtain ⟨hhigh, hlow⟩ := (reservedClear_iff w).mp hclear
    obtain ⟨hhighE, hlowE⟩ := (reservedClear_iff _).mp hclearE
    exact word_ext_fields (hhighE.trans hhigh.symm) (hlenE.trans hlen) (hlowE.trans hlow.symm) (hopE.trans hop)
  next => cases h

theorem decode_clrerr_word : decode 0x00000002#32 = .ok .clrerr := by decide

theorem decode_eq_clrerr_iff {w : Word} : decode w = .ok .clrerr ↔ w = 0x00000002#32 :=
  ⟨fun h => (encode_of_decode_ok h).symm, fun h => h ▸ decode_clrerr_word⟩

/-- `STATUS` after a write to `CMD`, by the word written. -/
theorem writeEffect_cmd_status {s t : State} {w : Word} (h : WriteEffect s w .cmd t) :
    (w = 0x00000002#32 ∧ t.status = Status.zero) ∨
      (w ≠ 0x00000002#32 ∧ (t.status = s.status.success ∨ ∃ f : CmdFault, f.Fits ∧ t.status = Status.faulted f)) := by
  simp only [ne_eq, ← decode_eq_clrerr_iff]
  cases h with
  | command hd he =>
    simp only [hd, Except.ok.injEq]
    exact effect_status he
  | illegal hd => exact .inr ⟨by simp [hd], .inr ⟨.illegalCommand, trivial, rfl⟩⟩

/-- The inversion of a write to `CMD`. -/
theorem writeEffect_of_runWord {s t : State} {w : Word} (h : runWord s w = .next t) : WriteEffect s w .cmd t := by
  obtain ⟨t', h', he⟩ := writeReg_effect s w .cmd
  obtain rfl : t' = t := by injection h'.symm.trans h
  exact he

/-- Settles O27: the three reports a word can leave. -/
theorem serrTracksFaults : Obligations.SerrTracksFaults := by
  intro s t w h
  obtain ⟨hw, hz⟩ | ⟨hw, hok | ⟨f, -, hfault⟩⟩ := writeEffect_cmd_status (writeEffect_of_runWord h)
  · simp [hw, hz, Status.zero]
  · simp [hw, hok]
  · simp [hw, hfault, f.code_ne_zero]

/-! ### What can change an element of the state -/

/-- Whatever a step changes of the architectural state (an observation `f` that does not see the model's own two
fields), a reset or an accepted write changes it (20_memory.md R77, R79). -/
theorem stepEffect_change {α : Type} (f : State → α) (hf : ∀ s q x, f ((s.setPending q).setResponse x) = f s)
    {s t : State} (h : StepEffect s t) (hne : f t ≠ f s) :
    s.pending.head? = some .reset ∨ ∃ (s₀ : State) (r : Reg) (w : Word),
      s.pending.head? = some (.write .bits32 (offsetOf r) w) ∧ WriteEffect s₀ w r t ∧ f t ≠ f s₀ := by
  cases h with
  | idle => exact absurd rfl hne
  | reset hp => exact .inl (by simp [hp])
  | read => exact absurd (hf _ _ _) hne
  | readRefused => exact absurd (hf _ _ _) hne
  | write hp he => exact .inr ⟨_, _, _, by rw [hp]; rfl, he, by rwa [hf]⟩
  | writeRefused => exact absurd (hf _ _ _) hne

/-- Only a write to `CMD` writes `STATUS` (10_state.md R45). -/
theorem writeEffect_status_change {s t : State} {w : Word} {r : Reg} (h : WriteEffect s w r t)
    (hne : t.status ≠ s.status) : r = .cmd := by
  cases h with
  | command => rfl
  | illegal => rfl
  | _ => exact absurd rfl hne

/-- Settles O28: a lost `SERR` is a reset's or a write's to `CMD`, and of the reports such a write leaves only CLRERR's
has `SERR` clear. -/
theorem onlyClrerrAndResetClearSerr : Obligations.OnlyClrerrAndResetClearSerr := by
  intro s t h hset hclear
  have hne : t.status.serr ≠ s.status.serr := by simp [hset, hclear]
  obtain hr | ⟨s₀, r, w, hp, he, hne₀⟩ :=
    stepEffect_change (·.status.serr) (fun _ _ _ => rfl) (effect_of_step h) hne
  · exact .inr hr
  obtain rfl := writeEffect_status_change he fun hst => hne₀ (by rw [hst])
  obtain ⟨rfl, -⟩ | ⟨-, hok | ⟨f, -, hfault⟩⟩ := writeEffect_cmd_status he
  · exact .inl ⟨_, hp, by decide⟩
  · exact absurd (by rw [hok, success_serr]) hne₀
  · simp [hfault] at hclear

theorem verdict_of_decode_ok {w : Word} {i : Instr} (hd : decode w = .ok i) (hw : i.wellFormed = true) :
    verdict w = .command i := by
  simp [verdict, hd, hw]

/-- What a write to a register other than `CMD` leaves of the data state (20_memory.md R76). -/
structure WriteKeeps (r : Reg) (s t : State) : Prop where
  lon : r ≠ .lon → t.lon = s.lon
  lat : r ≠ .lat → t.lat = s.lat
  sym : (∀ n, r ≠ .syw n) → t.sym = s.sym
  ch : (∀ n, r ≠ .chw n) → t.ch = s.ch
  nbits : t.nbits = s.nbits

theorem writeEffect_keeps {s t : State} {w : Word} {r : Reg} (h : WriteEffect s w r t) (hr : r ≠ .cmd) :
    WriteKeeps r s t := by
  cases h with
  | command => exact absurd rfl hr
  | illegal => exact absurd rfl hr
  | _ => constructor <;> simp

/-- Whatever a step changes of the data state (an observation that does not see `STATUS` either), a reset, a legal
command or a write to another register than `CMD` changes it: a word that only reports a fault does not. -/
theorem stepEffect_data_change {α : Type} (f : State → α)
    (hf : ∀ s q x, f ((s.setPending q).setResponse x) = f s) (hst : ∀ s st, f (s.setStatus st) = f s)
    {s t : State} (h : StepEffect s t) (hne : f t ≠ f s) :
    s.pending.head? = some .reset ∨ ∃ s₀ : State, f t ≠ f s₀ ∧
      ((∃ i, DeliversCommand s i ∧ Untouched i s₀ t) ∨ ∃ r, DeliversWrite s (offsetOf r) ∧ WriteKeeps r s₀ t) := by
  obtain hr | ⟨s₀, r, w, hp, he, hne₀⟩ := stepEffect_change f hf h hne
  · exact .inl hr
  refine .inr ⟨s₀, hne₀, ?_⟩
  by_cases hr : r = .cmd
  · subst hr
    cases he with
    | command hd he =>
      obtain hw | rfl := effect_wf he
      · exact .inl ⟨_, ⟨w, hp, verdict_of_decode_ok hd hw⟩, effect_untouched he⟩
      · exact absurd (hst _ _) hne₀
    | illegal => exact absurd (hst _ _) hne₀
  · exact .inr ⟨r, ⟨w, hp⟩, writeEffect_keeps he hr⟩

section Writers

variable {s t : State} (h : StepEffect s t)
include h

theorem lon_writers (hne : t.lon ≠ s.lon) :
    s.pending.head? = some .reset ∨ DeliversWrite s 0x08 ∨ DeliversCommand s .clear ∨
      ∃ len, DeliversCommand s (.unpack len) ∨ DeliversCommand s (.decode len) := by
  obtain hr | ⟨s₀, hne₀, ⟨i, hd, hu⟩ | ⟨r, hd, hk⟩⟩ :=
    stepEffect_data_change (·.lon) (fun _ _ _ => rfl) (fun _ _ => rfl) h hne
  · exact .inl hr
  · refine .inr (.inr ?_)
    cases i with
    | clear => exact .inl hd
    | unpack len => exact .inr ⟨len, .inl hd⟩
    | decode len => exact .inr ⟨len, .inr hd⟩
    | _ => exact absurd hu.1 hne₀
  · obtain rfl : r = .lon := by_contra fun hr => hne₀ (hk.lon hr)
    exact .inr (.inl hd)

theorem lat_writers (hne : t.lat ≠ s.lat) :
    s.pending.head? = some .reset ∨ DeliversWrite s 0x0C ∨ DeliversCommand s .clear ∨
      ∃ len, DeliversCommand s (.unpack len) ∨ DeliversCommand s (.decode len) := by
  obtain hr | ⟨s₀, hne₀, ⟨i, hd, hu⟩ | ⟨r, hd, hk⟩⟩ :=
    stepEffect_data_change (·.lat) (fun _ _ _ => rfl) (fun _ _ => rfl) h hne
  · exact .inl hr
  · refine .inr (.inr ?_)
    cases i with
    | clear => exact .inl hd
    | unpack len => exact .inr ⟨len, .inl hd⟩
    | decode len => exact .inr ⟨len, .inr hd⟩
    | encode => exact absurd hu.2 hne₀
    | _ => exact absurd hu.2.1 hne₀
  · obtain rfl : r = .lat := by_contra fun hr => hne₀ (hk.lat hr)
    exact .inr (.inl hd)

theorem sym_writers (hne : t.sym ≠ s.sym) :
    s.pending.head? = some .reset ∨ DeliversWrite s 0x30 ∨ DeliversWrite s 0x34 ∨
      DeliversWrite s 0x38 ∨ DeliversCommand s .clear ∨
      ∃ len, DeliversCommand s (.pack len) ∨ DeliversCommand s (.encode len) ∨ DeliversCommand s (.lookup len) ∨
        DeliversCommand s (.decode len) := by
  obtain hr | ⟨s₀, hne₀, ⟨i, hd, hu⟩ | ⟨r, hd, hk⟩⟩ :=
    stepEffect_data_change (·.sym) (fun _ _ _ => rfl) (fun _ _ => rfl) h hne
  · exact .inl hr
  · refine .inr (.inr (.inr (.inr ?_)))
    cases i with
    | clear => exact .inl hd
    | pack len => exact .inr ⟨len, .inl hd⟩
    | encode len => exact .inr ⟨len, .inr (.inl hd)⟩
    | lookup len => exact .inr ⟨len, .inr (.inr (.inl hd))⟩
    | decode len => exact .inr ⟨len, .inr (.inr (.inr hd))⟩
    | unpack => exact absurd hu.1 hne₀
    | map => exact absurd hu.2.2 hne₀
    | _ => exact absurd hu.2.2.1 hne₀
  · obtain ⟨n, rfl⟩ : ∃ n, r = .syw n := by_contra fun hr => hne₀ (hk.sym (not_exists.mp hr))
    fin_cases n
    · exact .inr (.inl hd)
    · exact .inr (.inr (.inl hd))
    · exact .inr (.inr (.inr (.inl hd)))

theorem ch_writers (hne : t.ch ≠ s.ch) :
    s.pending.head? = some .reset ∨ DeliversWrite s 0x20 ∨ DeliversWrite s 0x24 ∨
      DeliversWrite s 0x28 ∨ DeliversCommand s .clear ∨
      ∃ len, DeliversCommand s (.map len) ∨ DeliversCommand s (.encode len) := by
  obtain hr | ⟨s₀, hne₀, ⟨i, hd, hu⟩ | ⟨r, hd, hk⟩⟩ :=
    stepEffect_data_change (·.ch) (fun _ _ _ => rfl) (fun _ _ => rfl) h hne
  · exact .inl hr
  · refine .inr (.inr (.inr (.inr ?_)))
    cases i with
    | clear => exact .inl hd
    | map len => exact .inr ⟨len, .inl hd⟩
    | encode len => exact .inr ⟨len, .inr hd⟩
    | nop | clrerr => exact absurd hu.2.2.2.1 hne₀
    | pack | lookup => exact absurd hu.2.2 hne₀
    | unpack => exact absurd hu.2 hne₀
    | decode => exact absurd hu hne₀
  · obtain ⟨n, rfl⟩ : ∃ n, r = .chw n := by_contra fun hr => hne₀ (hk.ch (not_exists.mp hr))
    fin_cases n
    · exact .inr (.inl hd)
    · exact .inr (.inr (.inl hd))
    · exact .inr (.inr (.inr (.inl hd)))

theorem nbits_writers (hne : t.nbits ≠ s.nbits) :
    s.pending.head? = some .reset ∨ ∃ i, i ≠ .nop ∧ i ≠ .clrerr ∧ DeliversCommand s i := by
  obtain hr | ⟨s₀, hne₀, ⟨i, hd, hu⟩ | ⟨r, hd, hk⟩⟩ :=
    stepEffect_data_change (·.nbits) (fun _ _ _ => rfl) (fun _ _ => rfl) h hne
  · exact .inl hr
  · refine .inr ⟨i, ?_, ?_, hd⟩ <;> rintro rfl <;> exact hne₀ hu.2.2.2.2
  · exact absurd hk.nbits hne₀

theorem status_writers (hne : t.status ≠ s.status) : s.pending.head? = some .reset ∨ DeliversWrite s 0x00 := by
  obtain hr | ⟨s₀, r, w, hp, he, hne₀⟩ := stepEffect_change (·.status) (fun _ _ _ => rfl) h hne
  · exact .inl hr
  · obtain rfl := writeEffect_status_change he hne₀
    exact .inr ⟨w, hp⟩

end Writers

/-- Settles O29: the writers of each element, by the frame of a command and of a write. -/
theorem stateElementsHaveTheirWriters : Obligations.StateElementsHaveTheirWriters := by
  intro s t h
  have he := effect_of_step h
  refine ⟨fun hp => ?_, lon_writers he, lat_writers he, sym_writers he, ch_writers he, nbits_writers he,
    status_writers he⟩
  injection h.symm.trans (step_nil hp)

/-! ### The two tables -/

theorem alpha_injective : Function.Injective alpha :=
  Function.LeftInverse.injective (g := fun c => (inv c).getD 0#5) fun σ => by simp [inv_alpha]

theorem mem_alphaTable_iff_inv (c : Byte) : c ∈ alphaTable ↔ ∃ σ, inv c = some σ := by
  simp only [mem_alphaTable_iff, inAlphabet_iff, inv_eq_some_iff]

/-- Settles O41: the five laws of R37, the list under Table A being the 32 valid cell values. -/
theorem inverseTableIsExact : Obligations.InverseTableIsExact := by
  have hnodup : alphaTable.Nodup := by decide
  exact ⟨isCodeOf_alpha, fun _ _ h => alpha_injective h, inv_alpha, fun _ _ => alpha_of_inv,
    fun _ => inv_eq_none_iff, ⟨alphaTable, rfl, hnodup, mem_alphaTable_iff_inv⟩,
    inv_eq_none_iff.mpr not_inAlphabet_zero⟩

/-! ### Reset -/

theorem reset_cells (k : Fin 12) : State.reset.sym[k] = 0#5 ∧ State.reset.ch[k] = 0x00#8 := by
  simp [State.reset]

/-- Settles O44: a delivered RESET is the reset state with the rest of the queue, and every field of that state is 0. -/
theorem resetZeroesState : Obligations.ResetZeroesState := by
  refine ⟨fun s rest hp => ⟨(s.setPending rest).applyReset, step_cons hp, ?_⟩, rfl, rfl, reset_cells, rfl, rfl⟩
  exact ⟨rfl, rfl, reset_cells, rfl, rfl, rfl, rfl⟩

end Sys2Proof.Machine
end

section
/-! PROOFS. The statements of 20_memory.md: what the window refuses (R74, R77, R78), what a read returns (R75) and a
write does (R76), and what two accesses in a row do (R79, R80). -/

namespace Sys2Proof.Machine

/-! ### Refused accesses -/

/-- The step on a refused read (20_memory.md R77). -/
theorem step_read_refused {s : State} {size : AccessSize} {off : Offset} {rest : List HostAction}
    (hp : s.pending = .read size off :: rest) (ha : accepted size off = none) :
    step s = .next ((s.setPending rest).setResponse (some .busError)) := by
  rw [step_cons hp, applyAction, ha]

/-- The step on a refused write (20_memory.md R77). -/
theorem step_write_refused {s : State} {size : AccessSize} {off : Offset} {w : Word} {rest : List HostAction}
    (hp : s.pending = .write size off w :: rest) (ha : accepted size off = none) :
    step s = .next ((s.setPending rest).setResponse (some .busError)) := by
  rw [step_cons hp, applyAction, ha]

/-- Settles O9: the three causes are exactly those of `accepted_eq_none_iff`. -/
theorem refusedAccessChangesNothing : Obligations.RefusedAccessChangesNothing := by
  intro s size off w rest hp hcause
  have ha : accepted size off = none := (accepted_eq_none_iff size off).mpr hcause
  obtain hp | hp := hp
  · exact step_read_refused hp ha
  · exact step_write_refused hp ha

/-! ### The registers and their offsets -/

/-- Distinct registers have distinct offsets (10_state.md R47 Table M). -/
theorem offsetOf_injective : Function.Injective offsetOf := fun r r' h =>
  Option.some.inj (by rw [← regAt_offsetOf r, h, regAt_offsetOf r'])

/-- An aligned offset that is not reserved is a register's. -/
theorem exists_eq_offsetOf {off : Offset} (halign : off.val % 4 = 0)
    (hres : off.val ∉ [0x14, 0x18, 0x1C, 0x2C, 0x3C]) : ∃ r, off = offsetOf r := by
  have ha : accepted .bits32 off ≠ none := fun h => by
    simpa [halign, hres] using (accepted_eq_none_iff .bits32 off).mp h
  obtain ⟨r, hr⟩ := Option.ne_none_iff_exists'.mp ha
  exact ⟨r, (accepted_eq_some hr).2⟩

/-! ### Reads -/

@[simp] theorem readReg_setPending (s : State) (q : List HostAction) (r : Reg) :
    readReg (s.setPending q) r = readReg s r := by
  cases r <;> rfl

@[simp] theorem readReg_setResponse (s : State) (x : Option Response) (r : Reg) :
    readReg (s.setResponse x) r = readReg s r := by
  cases r <;> rfl

/-- Settles O10: the offset is reserved, or a register's; a clause about another register's offset is void, and the one
about its own is that register's word law. -/
theorem busReadReturnsRegister : Obligations.BusReadReturnsRegister := by
  intro s off rest hp halign
  refine ⟨fun hres => step_read_refused hp ((accepted_eq_none_iff _ _).mpr (.inr (.inr hres))), fun hres => ?_⟩
  obtain ⟨r, rfl⟩ := exists_eq_offsetOf halign hres
  have reg_of_val {r' : Reg} (h : (offsetOf r).val = (offsetOf r').val) : r = r' := offsetOf_injective (Fin.ext h)
  refine ⟨readReg s r, by rw [step_read hp, readReg_setPending]; rfl, ?_, ?_, ?_, ?_, ?_, ?_, ?_⟩
  · intro h
    obtain rfl := reg_of_val (r' := .cmd) h
    rfl
  · intro h
    obtain rfl := reg_of_val (r' := .status) h
    exact status_word_fields s.status
  · intro h
    obtain rfl := reg_of_val (r' := .lon) h
    rfl
  · intro h
    obtain rfl := reg_of_val (r' := .lat) h
    rfl
  · intro h
    obtain rfl := reg_of_val (r' := .nbits) h
    exact nbits_word_fields s.nbits
  · intro n b k h hk
    obtain rfl := reg_of_val (r' := .chw n) h
    exact chWord_extract s.ch n b k hk
  · intro n b k h hk
    obtain rfl := reg_of_val (r' := .syw n) h
    exact symWord_extract s.sym n b k hk

/-! ### Writes -/

theorem runWord_of_ok {w : Word} {i : Instr} (hd : decode w = .ok i) (s : State) : runWord s w = exec i s := by
  rw [runWord, hd]

theorem runWord_of_error {w : Word} {e : DecodeReject} (hd : decode w = .error e) (s : State) :
    runWord s w = .next (s.takeFault .illegalCommand) := by
  rw [runWord, hd]

/-- Settles O11: each clause is `step_write` at that register's offset, with the cells of a written buffer word. -/
theorem busWriteTakesEffect : Obligations.BusWriteTakesEffect := by
  rintro s off w rest s₀ hp - rfl
  have step_at (r : Reg) (h : off.val = (offsetOf r).val) :
      step s = writeReg ((s.setPending rest).setResponse (some .done)) w r := step_write (hp.trans (by rw [Fin.ext h]))
  refine ⟨?_, ?_, ?_, step_at .lon, step_at .lat, ?_, ?_, ?_⟩
  · exact fun h i hd => (step_at .cmd h).trans (runWord_of_ok hd _)
  · exact fun h e hd => (step_at .cmd h).trans (runWord_of_error hd _)
  · rintro (h | h)
    · exact step_at .status h
    · exact step_at .nbits h
  · exact fun n h => ⟨setChWord s.ch n w, step_at (.chw n) h, setChWord_getElem s.ch n w⟩
  · exact fun n h => ⟨setSymWord s.sym n w, step_at (.syw n) h, setSymWord_getElem s.sym n w⟩
  · exact fun hres => step_write_refused hp ((accepted_eq_none_iff _ _).mpr (.inr (.inr hres)))

/-! ### Two accesses in a row -/

/-- What a data register holds after a write of it: the word, or of a symbol word its low five bits in each byte
(20_memory.md R75, R76). -/
theorem WriteEffect.readReg_eq {s t : State} {w : Word} {r : Reg} (h : WriteEffect s w r t) :
    ((r = .lon ∨ r = .lat ∨ ∃ n, r = .chw n) → readReg t r = w) ∧
      ((∃ n, r = .syw n) → readReg t r = w &&& 0x1F1F1F1F#32) := by
  cases h with
  | chw n => simp [readReg, chWord_setChWord]
  | syw n => simp [readReg, symWord_setSymWord]
  | _ => simp [readReg]

/-- Settles O12: the write leaves the read at the head of the queue, and the read returns what the register then
holds. -/
theorem readAfterWriteReturnsWord : Obligations.ReadAfterWriteReturnsWord := by
  intro s r w rest hp
  obtain ⟨t, ht, he⟩ :=
    writeReg_effect ((s.setPending (.read .bits32 (offsetOf r) :: rest)).setResponse (some .done)) w r
  obtain ⟨htp, -⟩ := write_pending he
  obtain ⟨hdata, hsym⟩ := he.readReg_eq
  refine ⟨t, _, (step_write hp).trans ht, step_read htp, rfl, ?_, ?_⟩
  · intro hr
    simp [hdata hr]
  · intro hr
    simp [hsym hr]

theorem setChWord_idem (ch : Cells Byte) (n : Fin 3) (w : Word) :
    setChWord (setChWord ch n w) n w = setChWord ch n w :=
  cells_ext fun k => by rw [setChWord_getElem, setChWord_getElem]; split <;> rfl

theorem setSymWord_idem (sym : Cells Sym) (n : Fin 3) (w : Word) :
    setSymWord (setSymWord sym n w) n w = setSymWord sym n w :=
  cells_ext fun k => by rw [setSymWord_getElem, setSymWord_getElem]; split <;> rfl

/-- The same write once more, whatever the queue and the response are by then (20_memory.md R79). -/
theorem WriteEffect.writeReg_again {s t : State} {w : Word} {r : Reg} (h : WriteEffect s w r t) (hr : r ≠ .cmd)
    (q : List HostAction) (x : Option Response) :
    writeReg ((t.setPending q).setResponse x) w r = .next ((t.setPending q).setResponse x) := by
  cases h with
  | command => exact absurd rfl hr
  | illegal => exact absurd rfl hr
  | chw n => simp [writeReg, State.ext_fields_iff, setChWord_idem]
  | syw n => simp [writeReg, State.ext_fields_iff, setSymWord_idem]
  | _ => rfl

/-- Settles O13: of writes by `WriteEffect.writeReg_again`; a read changes only the queue and the response,
neither of which the next read sees. -/
theorem dataAccessesAreIdempotent : Obligations.DataAccessesAreIdempotent := by
  constructor
  · intro s t u r w rest hr hp ht hu
    obtain ⟨t', ht', he⟩ :=
      writeReg_effect ((s.setPending (.write .bits32 (offsetOf r) w :: rest)).setResponse (some .done)) w r
    obtain rfl : t' = t := by injection ht'.symm.trans ((step_write hp).symm.trans ht)
    obtain ⟨htp, htr⟩ := write_pending he
    rw [step_write htp, he.writeReg_again hr] at hu
    injection hu with hu
    rw [← hu]
    exact State.ext_fields rfl rfl rfl rfl rfl rfl rfl htr.symm
  · intro s t u size off rest hp ht hu
    cases ha : accepted size off with
    | none =>
      rw [step_read_refused hp ha] at ht
      cases ht
      rw [step_read_refused rfl ha] at hu
      cases hu
      rfl
    | some r =>
      obtain ⟨rfl, rfl⟩ := accepted_eq_some ha
      rw [step_read hp] at ht
      cases ht
      rw [step_read rfl] at hu
      cases hu
      simp [State.ext_fields_iff]

end Sys2Proof.Machine
end

section
/-! PROOFS. The statements of 30_encoding.md: decoder and encoder are inverse (R104, R107), the legal words (R105), the
step on a command word (R100), and the driver scripts (R116). -/

namespace Sys2Proof.Machine

/-! ### Decoder and encoder -/

/-- Steps 2 and 3 of 30_encoding.md R100 find every command from its own fields. -/
theorem decodeOp_op_lenBits (i : Instr) : decodeOp i.op i.lenBits = .ok i := by cases i <;> rfl

theorem decode_encode (i : Instr) : decode (encode i) = .ok i := by
  obtain ⟨hop, hlen, hclear⟩ := encode_fields i
  rw [decode, if_pos hclear, hop, hlen, decodeOp_op_lenBits]

/-- Settles O2: the fields of `encode i` are those of `i`, and `decodeOp` finds `i` from them. -/
theorem decodeOfEncodeIsIdentity : Obligations.DecodeOfEncodeIsIdentity :=
  fun i => ⟨decode_encode i, verdict_of_decode_ok (decode_encode i)⟩

/-- Settles O3: the four fields of a word that decodes are those of the command's word. -/
theorem encodeOfDecodeIsIdentity : Obligations.EncodeOfDecodeIsIdentity :=
  fun _ _ => encode_of_decode_ok

/-- Settles O1: each word is the word of its command, so `decode_encode` applies. -/
theorem sampleWordsDecode : Obligations.SampleWordsDecode :=
  ⟨decode_encode .nop, decode_encode .clear, decode_encode .clrerr, decode_encode (.pack 12), decode_encode (.map 1),
    decode_encode (.encode 9), decode_encode (.lookup 5), decode_encode (.unpack 11), decode_encode (.decode 10)⟩

/-- Settles O7: offset 0 is `CMD`'s, and a write of it runs the decoded command. -/
theorem stepRunsDecodedCommand : Obligations.StepRunsDecodedCommand :=
  fun _ _ _ _ hp hd => (step_write (r := .cmd) hp).trans (runWord_of_ok hd _)

/-! ### The legal words -/

theorem encode_injective : Function.Injective encode := fun i j h =>
  Except.ok.inj ((decode_encode i).symm.trans ((congrArg decode h).trans (decode_encode j)))

/-- The verdict accepts exactly the words of the legal commands (30_encoding.md R106). -/
theorem verdict_eq_command_iff {w : Word} {i : Instr} :
    verdict w = .command i ↔ i.wellFormed = true ∧ encode i = w := by
  constructor
  · intro h
    unfold verdict at h
    split at h
    next => cases h
    next j hd =>
      split at h
      next hj =>
        cases h
        exact ⟨hj, encode_of_decode_ok hd⟩
      next => cases h
  · rintro ⟨hi, rfl⟩
    exact verdict_of_decode_ok (decode_encode i) hi

/-- The three control commands (30_encoding.md R104 Table O). -/
def controlCommands : List Instr := [.nop, .clear, .clrerr]

/-- The six data commands at one value of the field `len` (30_encoding.md R104 Table O). -/
def dataCommands (len : BitVec 4) : List Instr :=
  [.pack len, .map len, .encode len, .lookup len, .unpack len, .decode len]

/-- The precisions 1 to `PMAX`, ascending. -/
def legalPrecisions : List (BitVec 4) := (List.range' 1 12).map (BitVec.ofNat 4)

/-- The commands of the 75 legal words (30_encoding.md R105). -/
def legalCommands : List Instr := controlCommands ++ legalPrecisions.flatMap dataCommands

theorem mem_legalPrecisions_iff : ∀ len : BitVec 4, len ∈ legalPrecisions ↔ Legal len := by unfold Legal; decide

theorem mem_legalCommands_iff (i : Instr) :
    i ∈ legalCommands ↔ i ∈ controlCommands ∨ ∃ len, Legal len ∧ i ∈ dataCommands len := by
  simp [legalCommands, mem_legalPrecisions_iff]

theorem wellFormed_iff_mem_legalCommands (i : Instr) : i.wellFormed = true ↔ i ∈ legalCommands := by
  rw [mem_legalCommands_iff]
  cases i <;> simp [Instr.wellFormed, controlCommands, dataCommands, legalPrecision_iff]

theorem mem_legal_words_iff_verdict (w : Word) : w ∈ legalCommands.map encode ↔ ∃ i, verdict w = .command i := by
  simp only [List.mem_map, verdict_eq_command_iff, wellFormed_iff_mem_legalCommands]

/-- A data command's word as a number: `P * 256 + op` (30_encoding.md R103). -/
theorem encode_eq_ofNat_of_mem_dataCommands {len : BitVec 4} {i : Instr} (h : i ∈ dataCommands len) :
    encode i = BitVec.ofNat 32 (len.toNat * 256 + i.op.toNat) := by
  have key : ∀ len : BitVec 4, ∀ i ∈ dataCommands len, encode i = BitVec.ofNat 32 (len.toNat * 256 + i.op.toNat) := by
    decide
  exact key len i h

/-- The six data operations, whatever the precision (30_encoding.md R104 Table O). -/
theorem dataCommands_ops (len : BitVec 4) :
    (dataCommands len).map (fun i => i.op.toNat) = [0x5, 0x6, 0x7, 0x9, 0xA, 0xB] := rfl

/-- The legal data words, as R105 lists them. -/
theorem exists_dataCommand_word_iff (w : Word) :
    (∃ len, Legal len ∧ ∃ i ∈ dataCommands len, encode i = w) ↔
      ∃ p op : Nat, 1 ≤ p ∧ p ≤ 12 ∧ op ∈ [0x5, 0x6, 0x7, 0x9, 0xA, 0xB] ∧ w = BitVec.ofNat 32 (p * 256 + op) := by
  constructor
  · rintro ⟨len, ⟨h1, h12⟩, i, hi, rfl⟩
    refine ⟨len.toNat, i.op.toNat, h1, h12, ?_, encode_eq_ofNat_of_mem_dataCommands hi⟩
    rw [← dataCommands_ops len]
    exact List.mem_map_of_mem hi
  · rintro ⟨p, op, h1, h12, hop, rfl⟩
    have hp : (BitVec.ofNat 4 p).toNat = p := by rw [BitVec.toNat_ofNat]; omega
    rw [← dataCommands_ops (BitVec.ofNat 4 p)] at hop
    obtain ⟨i, hi, rfl⟩ := List.mem_map.mp hop
    refine ⟨BitVec.ofNat 4 p, ⟨by omega, by omega⟩, i, hi, ?_⟩
    rw [encode_eq_ofNat_of_mem_dataCommands hi, hp]

theorem controlCommands_words : controlCommands.map encode = [0x00000000#32, 0x00000001#32, 0x00000002#32] := by decide

/-- The legal words, as R105 lists them. -/
theorem mem_legal_words_iff_listed (w : Word) :
    w ∈ legalCommands.map encode ↔ (w = 0x00000000#32 ∨ w = 0x00000001#32 ∨ w = 0x00000002#32 ∨
      ∃ p op : Nat, 1 ≤ p ∧ p ≤ 12 ∧ op ∈ [0x5, 0x6, 0x7, 0x9, 0xA, 0xB] ∧ w = BitVec.ofNat 32 (p * 256 + op)) := by
  rw [← exists_dataCommand_word_iff, legalCommands, List.map_append, List.mem_append, controlCommands_words,
    List.map_flatMap]
  simp only [List.mem_flatMap, List.mem_map, mem_legalPrecisions_iff, List.mem_cons, List.not_mem_nil, or_false,
    or_assoc]

/-- A word without a command as verdict is reported, as InvalidPrecision or IllegalCommand (60_exceptions.md R180). -/
theorem runWord_of_no_command {w : Word} (h : ¬ ∃ i, verdict w = .command i) (s : State) :
    ∃ t, runWord s w = .next t ∧ (t.status.err = 2#3 ∨ t.status.err = 3#3) := by
  obtain ⟨i, hd, hrun⟩ | ⟨e, -, hrun⟩ := runWord_cases s w
  · have hi : i.wellFormed = false := Bool.eq_false_iff.mpr fun hi => h ⟨i, verdict_of_decode_ok hd hi⟩
    exact ⟨_, hrun.trans (exec_illFormed hi s), .inl rfl⟩
  · exact ⟨_, hrun, .inr rfl⟩

/-- Settles O4: the words of `legalCommands`, different because `encode` is injective. -/
theorem legalWordsAreSeventyFive : Obligations.LegalWordsAreSeventyFive := by
  have hnodup : legalCommands.Nodup := by decide
  refine ⟨legalCommands.map encode, rfl, hnodup.map encode_injective, mem_legal_words_iff_verdict,
    mem_legal_words_iff_listed, fun w s hw => runWord_of_no_command ?_ s⟩
  rwa [← mem_legal_words_iff_verdict]

/-! ### Script accesses -/

/-- The reads of a script: the words the registers hold, and no state changes but the response. -/
theorem runScript_reads (rs : List Reg) : ∀ s : State,
    ∃ x, runScript (rs.map scriptRead) s = some (s.setResponse x, rs.map (readReg s)) := by
  induction rs with
  | nil => exact fun s => ⟨s.response, rfl⟩
  | cons r rs ih =>
    intro s
    obtain ⟨x, hx⟩ := ih (s.setResponse (some (.word (readReg s r))))
    refine ⟨x, ?_⟩
    rw [List.map_cons, runScript_read, hx, show readReg (s.setResponse _) = readReg s from
      funext (readReg_setResponse s _)]
    rfl

/-- A script that has read the `STATUS` word `st` goes on as the host decides on it. -/
theorem runOnStatus_of_runScript {first : List HostAction} {s t : State} {st : Word}
    (h : runScript first s = some (t, [st])) (rest : Word → List HostAction) :
    runOnStatus first rest s = (runScript (rest st) t).map fun r => (r.1, st, r.2) := by
  rw [runOnStatus, h]

/-- The branch of both scripts is on `ERR` (20_memory.md R75). -/
theorem scriptErr_word (st : Status) : scriptErr st.word = st.err := (status_word_fields st).1

/-- The step on a command of a script. -/
theorem step_command {s t : State} {i : Instr} {rest : List HostAction} (hp : s.pending = scriptCommand i :: rest)
    (h : exec i ((s.setPending rest).setResponse (some .done)) = .next t) : step s = .next t :=
  (step_write (r := .cmd) hp).trans ((runWord_of_ok (decode_encode i) _).trans h)

/-- The words of a buffer that hold its first `p` cells (20_memory.md R72), the ones both scripts access. -/
def wordsBelow (p : Nat) : List (Fin 3) := 0 :: ((if 4 < p then [1] else []) ++ (if 8 < p then [2] else []))

theorem div_four_mem_wordsBelow {p : Nat} {k : Fin 12} (h : k.val < p) : ∃ n ∈ wordsBelow p, k.val / 4 = n.val := by
  have hk := k.isLt
  obtain h4 | h4 | h4 : k.val / 4 = 0 ∨ k.val / 4 = 1 ∨ k.val / 4 = 2 := by omega
  · exact ⟨0, by simp [wordsBelow], h4⟩
  · exact ⟨1, by simp [wordsBelow, show 4 < p by omega], h4⟩
  · exact ⟨2, by simp [wordsBelow, show 8 < p by omega], h4⟩

/-- The words below `p` are the first ones of a buffer. -/
theorem wordsBelow_isPrefix (p : Nat) : wordsBelow p <+: [0, 1, 2] := by
  unfold wordsBelow
  split_ifs
  · decide
  · decide
  · omega
  · decide

/-! ### `GH.ENCODE` -/

/-- `GH.ENCODE` up to its read of `STATUS`, whatever its command does. -/
theorem runScript_ghEncode {lon lat : Word} {p : BitVec 4} {s t : State}
    (h : exec (.encode p) (((s.setLon lon).setLat lat).setResponse (some .done)) = .next t) :
    runScript (ghEncode lon lat p) s = some (t.setResponse (some (.word t.status.word)), [t.status.word]) := by
  calc runScript (ghEncode lon lat p) s
    _ = runScript [scriptWrite .lat lat, scriptCommand (.encode p), scriptRead .status]
        ((s.setLon lon).setResponse (some .done)) := runScript_write _ rfl
    _ = runScript [scriptCommand (.encode p), scriptRead .status]
        (((s.setLon lon).setLat lat).setResponse (some .done)) := runScript_write _ rfl
    _ = runScript [scriptRead .status] t := runScript_command _ (decode_encode _) h
    _ = some (t.setResponse (some (.word t.status.word)), [t.status.word]) := runScript_read .status t []

theorem ghEncodeResults_eq (p : BitVec 4) :
    ghEncodeResults p = ((wordsBelow p.toNat).map Reg.chw).map scriptRead := by
  unfold ghEncodeResults wordsBelow
  split_ifs <;> rfl

/-- All the bytes a host can read of the character buffer are its cells in order (20_memory.md R72). -/
theorem flatMap_wordBytes_chWord (ch : Cells Byte) :
    ([0, 1, 2] : List (Fin 3)).flatMap (fun n => wordBytes (chWord ch n)) = ch.toList := by
  have hch : ch = tabulate (fun k => ch[k]) := cells_ext fun k => (tabulate_getElem (fun k => ch[k]) k).symm
  simp only [wordBytes_chWord]
  exact (congrArg Vector.toList hch).symm

/-- The `P` low-order-first bytes of the words read are the first `P` cells (30_encoding.md R116). -/
theorem take_wordBytes_wordsBelow (ch : Cells Byte) {p : Nat} (hp : p ≤ 12) :
    ((wordsBelow p).flatMap fun n => wordBytes (chWord ch n)).take p = ch.toList.take p := by
  obtain ⟨rest, hrest⟩ := wordsBelow_isPrefix p
  have hlen : p ≤ ((wordsBelow p).flatMap fun n => wordBytes (chWord ch n)).length := by
    unfold wordsBelow wordBytes
    split_ifs <;> simp <;> omega
  rw [← flatMap_wordBytes_chWord ch, ← hrest, List.flatMap_append, List.take_append_of_le_length hlen]

/-- `GH.ENCODE` whole, when its command succeeds: the first `P` cells, and no state changes but the response. -/
theorem runGhEncode_of_success {lon lat : Word} {p : BitVec 4} {s t : State} (hp : p.toNat ≤ 12)
    (h : exec (.encode p) (((s.setLon lon).setLat lat).setResponse (some .done)) = .next t)
    (herr : t.status.err = 0#3) :
    ∃ x, runGhEncode lon lat p s = some (t.setResponse x, .string (t.ch.toList.take p.toNat)) := by
  have hst : scriptErr t.status.word = 0#3 := (scriptErr_word _).trans herr
  obtain ⟨x, hx⟩ := runScript_reads ((wordsBelow p.toNat).map Reg.chw) (t.setResponse (some (.word t.status.word)))
  refine ⟨x, ?_⟩
  rw [runGhEncode, runOnStatus_of_runScript (runScript_ghEncode h), ghEncodeRest, if_pos hst, ghEncodeResults_eq, hx]
  simp only [Option.map_some, ghEncodeOutcome, if_pos hst, List.map_map, List.flatMap_map,
    ← take_wordBytes_wordsBelow t.ch hp]
  rfl

/-- `GH.ENCODE` whole, when its command faults: the `STATUS` word. -/
theorem runGhEncode_of_fault {lon lat : Word} {p : BitVec 4} {s t : State}
    (h : exec (.encode p) (((s.setLon lon).setLat lat).setResponse (some .done)) = .next t)
    (herr : t.status.err ≠ 0#3) :
    ∃ x, runGhEncode lon lat p s = some (t.setResponse x, .failed t.status.word) := by
  have hst : scriptErr t.status.word ≠ 0#3 := (scriptErr_word _).trans_ne herr
  refine ⟨some (.word t.status.word), ?_⟩
  rw [runGhEncode, runOnStatus_of_runScript (runScript_ghEncode h), ghEncodeRest, if_neg hst]
  simp only [runScript_nil, Option.map_some, ghEncodeOutcome, if_neg hst]

/-- Settles O47: two writes, the command on the written lanes, and the read of its report. -/
theorem ghEncodeScriptProducesString : Obligations.GhEncodeScriptProducesString := by
  intro s lon lat len rest hlen hp
  exact ⟨_, _, _, _, _, step_write (r := .lon) hp, step_write (r := .lat) rfl, step_command rfl (exec_encode hlen _),
    step_read (r := .status) rfl, rfl, rfl, (status_word_fields _).1, rfl, rfl, symbolsOfLanes_packSyms lon lat _,
    charsOfSymbols_mapCells _ _⟩

/-- Settles O48: the command succeeds exactly on a legal precision, on the lanes the script has written. -/
theorem ghEncodeGivesString : Obligations.GhEncodeGivesString := by
  intro s lon lat len
  constructor
  · intro hlen
    have hp : len.toNat ≤ 12 := hlen.2
    obtain ⟨x, hx⟩ := runGhEncode_of_success hp (exec_encode (s := ((s.setLon lon).setLat lat).setResponse _) hlen) rfl
    refine ⟨_, _, hx, ?_, ?_, rfl, rfl, symbolsOfLanes_packSyms lon lat _, charsOfSymbols_mapCells _ _, rfl⟩
    · simp [Config.ncell, hp]
    · intro k hk
      simp [hk]
  · intro hlen
    obtain ⟨x, hx⟩ := runGhEncode_of_fault (withPrecision_illegal hlen (((s.setLon lon).setLat lat).setResponse _) _)
      (CmdFault.code_ne_zero .invalidPrecision)
    exact ⟨_, _, hx, (status_word_fields _).1, rfl, rfl, rfl, rfl, rfl, rfl⟩

/-! ### `GH.DECODE` -/

/-- The write of word `n` of a string (30_encoding.md R116). -/
def writeStringWord (str : List Byte) (n : Fin 3) : HostAction := scriptWrite (.chw n) (stringWord str n.val)

theorem ghDecode_eq {str : List Byte} (h : str.length < 16) :
    ghDecode str = some ((wordsBelow str.length).map (writeStringWord str) ++
      [scriptCommand (.decode (BitVec.ofNat 4 str.length)), scriptRead .status]) := by
  unfold ghDecode wordsBelow
  rw [if_pos h]
  split_ifs <;> rfl

/-- The writes of some words of a string: the cells of those words hold its characters, and no other state changes but
the response. -/
theorem runScript_writeStringWords (str : List Byte) (as : List HostAction) (ns : List (Fin 3)) : ∀ s : State,
    ∃ ch x, runScript (ns.map (writeStringWord str) ++ as) s = runScript as ((s.setCh ch).setResponse x) ∧
      ∀ k : Fin 12, (∃ n ∈ ns, k.val / 4 = n.val) ∨ s.ch[k] = str.getD k.val 0#8 → ch[k] = str.getD k.val 0#8 := by
  induction ns with
  | nil => exact fun s => ⟨s.ch, s.response, rfl, fun k hk => hk.resolve_left (by simp)⟩
  | cons n ns ih =>
    intro s
    obtain ⟨ch, x, hrun, hch⟩ :=
      ih ((s.setResponse (some .done)).setCh (setChWord s.ch n (stringWord str n.val)))
    refine ⟨ch, x, (runScript_write _ rfl).trans hrun, fun k hk => hch k ?_⟩
    rw [setCh_ch, setChWord_stringWord]
    by_cases hn : k.val / 4 = n.val
    · exact .inr (if_pos hn)
    · rw [if_neg hn]
      simpa [hn] using hk

/-- The first cells of a character buffer hold the characters of a string. -/
def HoldsString (ch : Cells Byte) (str : List Byte) : Prop :=
  ∀ k : Fin 12, k.val < str.length → str[k.val]? = some ch[k]

/-- Cells that hold a string over the alphabet are valid. -/
theorem HoldsString.validCells {ch : Cells Byte} {str : List Byte} (h : HoldsString ch str)
    (halpha : ∀ x ∈ str, InAlphabet x) : ValidCells ch str.length :=
  fun k hk => halpha _ (List.mem_of_getElem? (h k hk))

/-- The first bad cell is that of the string's first character outside the alphabet. -/
theorem HoldsString.firstBad {ch : Cells Byte} {str : List Byte} (h : HoldsString ch str) {k : Fin 12}
    (hk : k.val < str.length) (hbad : ¬ InAlphabet ch[k]) (hbefore : ∀ y ∈ str.take k.val, InAlphabet y) :
    FirstBad ch str.length k :=
  ⟨hk, hbad, fun j hj => hbefore _
    (List.mem_of_getElem? ((List.getElem?_take_of_lt hj).trans (h j (lt_trans hj hk))))⟩

/-- `GH.DECODE` up to its read of `STATUS`: the cells hold the string when the command runs. -/
theorem runScript_ghDecode (str : List Byte) (s : State) (hlen : str.length ≤ 12) :
    ∃ first ch, ghDecode str = some first ∧ HoldsString ch str ∧
      ∀ t, exec (.decode (BitVec.ofNat 4 str.length)) ((s.setCh ch).setResponse (some .done)) = .next t →
        runScript first s = some (t.setResponse (some (.word t.status.word)), [t.status.word]) := by
  obtain ⟨ch, x, hrun, hch⟩ := runScript_writeStringWords str
    [scriptCommand (.decode (BitVec.ofNat 4 str.length)), scriptRead .status] (wordsBelow str.length) s
  refine ⟨_, ch, ghDecode_eq (by omega), fun k hk => ?_, fun t ht => ?_⟩
  · rw [hch k (.inl (div_four_mem_wordsBelow hk)), List.getElem?_eq_getElem hk, List.getD_eq_getElem _ _ hk]
  · calc runScript _ s
      _ = runScript [scriptCommand (.decode (BitVec.ofNat 4 str.length)), scriptRead .status]
          ((s.setCh ch).setResponse x) := hrun
      _ = runScript [scriptRead .status] t := runScript_command _ (decode_encode _) ht
      _ = some (t.setResponse (some (.word t.status.word)), [t.status.word]) := runScript_read .status t []

/-- `GH.DECODE` whole, when its command succeeds: the lanes and the counts. -/
theorem runGhDecode_of_success {str : List Byte} {first : List HostAction} {s t : State}
    (hfirst : ghDecode str = some first)
    (hrun : runScript first s = some (t.setResponse (some (.word t.status.word)), [t.status.word]))
    (herr : t.status.err = 0#3) :
    ∃ x, runGhDecode str s = some (t.setResponse x, .lanes t.lon t.lat t.nbits.word) := by
  have hst : scriptErr t.status.word = 0#3 := (scriptErr_word _).trans herr
  obtain ⟨x, hx⟩ := runScript_reads [.lon, .lat, .nbits] (t.setResponse (some (.word t.status.word)))
  refine ⟨x, ?_⟩
  rw [runGhDecode, hfirst, Option.bind_some, runOnStatus_of_runScript hrun, ghDecodeRest, if_pos hst,
    show ghDecodeResults = [Reg.lon, .lat, .nbits].map scriptRead from rfl, hx]
  simp only [Option.map_some, Option.bind_some, ghDecodeOutcome, if_pos hst]
  rfl

/-- `GH.DECODE` whole, when its command meets a character outside the alphabet: the index and the byte. -/
theorem runGhDecode_of_invalidCharacter {str : List Byte} {first : List HostAction} {s t : State} {k : Fin 12}
    {c : Byte} (hfirst : ghDecode str = some first)
    (hrun : runScript first s = some (t.setResponse (some (.word t.status.word)), [t.status.word]))
    (hst : t.status = Status.faulted (.invalidCharacter k c)) :
    runGhDecode str s =
      some (t.setResponse (some (.word t.status.word)), .invalidCharacter (BitVec.ofNat 4 k.val) c) := by
  obtain ⟨-, -, hidx, hech, -⟩ := status_word_fields t.status
  have herr : scriptErr t.status.word = 1#3 := by rw [scriptErr_word, hst]; rfl
  have hne : scriptErr t.status.word ≠ 0#3 := by rw [herr]; decide
  rw [runGhDecode, hfirst, Option.bind_some, runOnStatus_of_runScript hrun, ghDecodeRest, if_neg hne]
  simp only [runScript_nil, Option.map_some, Option.bind_some, ghDecodeOutcome, if_neg hne, if_pos herr, hidx, hech]
  simp [hst, CmdFault.eidx, CmdFault.ech]

/-- The counts that `GH.DECODE` gives (10_state.md R33, R46). -/
theorem ofPrecision_word_counts {p : Nat} (hp : p ≤ 12) :
    ((NBits.ofPrecision p).word.extractLsb' 0 6).toNat = (5 * p + 1) / 2 ∧
      ((NBits.ofPrecision p).word.extractLsb' 8 6).toNat = 5 * p / 2 ∧
      ((NBits.ofPrecision p).word.extractLsb' 16 4).toNat = p := by
  obtain ⟨hlon, -, hlat, -, hlen, -⟩ := nbits_word_fields (NBits.ofPrecision p)
  rw [hlon, hlat, hlen]
  simp only [NBits.ofPrecision, nlonOf, nlatOf, Config.symw, BitVec.toNat_ofNat]
  omega

/-- Settles O49: the cells below the length hold the string, so the command's check of the cells is a check of the
string. -/
theorem ghDecodeGivesLanesOrOffender : Obligations.GhDecodeGivesLanesOrOffender := by
  intro s str hpos hlen
  obtain ⟨first, ch, hfirst, hch, hrun⟩ := runScript_ghDecode str s hlen
  have hp : (BitVec.ofNat 4 str.length).toNat = str.length := by rw [BitVec.toNat_ofNat]; omega
  have hlegal : Legal (BitVec.ofNat 4 str.length) := ⟨by omega, by omega⟩
  constructor
  · intro halpha
    have hvalid := hch.validCells halpha
    have hexec := exec_decode hlegal (s := (s.setCh ch).setResponse (some .done)) (by rwa [hp])
    rw [hp] at hexec
    obtain ⟨x, hx⟩ := runGhDecode_of_success hfirst (hrun _ hexec) rfl
    obtain ⟨hlon, hlat, hcount⟩ := ofPrecision_word_counts hlen
    exact ⟨_, _, hx, fun k hk => ⟨ch[k], hch k hk, rfl, (symbolsOfChars_lookupSyms hvalid k).1 hk⟩,
      lanesOfSymbols_unpackLane _ _ hlen, hlon, hlat, hcount, rfl⟩
  · intro i x hi hbad hbefore
    obtain ⟨hil, -⟩ := List.getElem?_eq_some_iff.mp hi
    have hi12 : i < 12 := by omega
    obtain rfl : ch[(⟨i, hi12⟩ : Fin 12)] = x := Option.some.inj ((hch ⟨i, hi12⟩ hil).symm.trans hi)
    have hfirstBad : FirstBad ch str.length ⟨i, hi12⟩ := hch.firstBad hil hbad hbefore
    have hexec := exec_decode_bad hlegal (s := (s.setCh ch).setResponse (some .done)) (by rwa [hp])
    exact ⟨_, runGhDecode_of_invalidCharacter hfirst (hrun _ hexec) rfl, rfl, rfl, rfl, rfl, rfl⟩

end Sys2Proof.Machine
end

section
/-! PROOFS. The statements of 40_encode_path.md: what PACK, MAP and ENCODE write (R131, R133, R135), MAP element by
element (R134), ENCODE as PACK then MAP (R136), the laws of the string (R137), and the bit-serial PACK (R132). -/

namespace Sys2Proof.Machine

/-! ### The three commands -/

/-- Settles O17: `exec_pack` gives the next state, and its symbols are those of R131. -/
theorem packInterleavesLanes : Obligations.PackInterleavesLanes :=
  ⟨fun _ => rfl, fun _ s hlen => ⟨_, exec_pack hlen s, symbolsOfLanes_packSyms s.lon s.lat _,
    dataSuccess_succeedData hlen rfl rfl rfl, rfl, rfl, rfl⟩⟩

/-- Settles O18: `exec_map` gives the next state, and its cells are those of R133. -/
theorem mapWritesCharacters : Obligations.MapWritesCharacters :=
  ⟨fun _ => rfl, fun _ s hlen => ⟨_, exec_map hlen s, charsOfSymbols_mapCells s.sym _,
    dataSuccess_succeedData hlen rfl rfl rfl, rfl, rfl, rfl⟩⟩

/-- Settles O19: `exec_encode` gives the next state, the symbols of R131 and the cells of R133 on them. -/
theorem encodeWritesString : Obligations.EncodeWritesString :=
  ⟨fun _ => rfl, fun _ s hlen => ⟨_, exec_encode hlen s, symbolsOfLanes_packSyms s.lon s.lat _,
    charsOfSymbols_mapCells _ _, dataSuccess_succeedData hlen rfl rfl rfl, rfl, rfl⟩⟩

/-- Settles O33: on a legal precision MAP sees PACK's symbols and a report already cleared; on any other the second
fault report is the first. -/
theorem packThenMapIsEncode : Obligations.PackThenMapIsEncode := by
  intro len s
  by_cases hlen : Legal len
  · exact ⟨_, _, exec_pack hlen s, exec_map hlen _, exec_encode hlen s⟩
  · exact ⟨_, _, withPrecision_illegal hlen s _, withPrecision_illegal hlen _ _, withPrecision_illegal hlen s _⟩

/-! ### The cells of the string -/

/-- Settles O31: a cell of `mapCells` is written from the symbol of its index, or is padding. -/
theorem mapIsElementwise : Obligations.MapIsElementwise := by
  intro len s s' k hlen
  refine ⟨_, _, exec_map hlen s, exec_map hlen s', fun hk hsym => ?_, fun hk => ?_⟩
  · rw [succeedData_ch, setCh_ch, succeedData_ch, setCh_ch, mapCells_getElem, mapCells_getElem, hsym]
  · rw [succeedData_ch, setCh_ch, mapCells_getElem, if_neg (not_lt.mpr hk)]

/-- Exactly the cells below the precision hold characters: padding is no character (10_state.md R37 (e)). -/
theorem inAlphabet_mapCells_iff (sym : Cells Sym) (p : Nat) (k : Fin 12) :
    InAlphabet (mapCells sym p)[k] ↔ k.val < p := by
  refine ⟨fun h => ?_, validCells_mapCells sym p k⟩
  by_contra hk
  rw [mapCells_getElem, if_neg hk] at h
  exact not_inAlphabet_zero h

/-- Settles O38: the cells MAP and ENCODE write are `mapCells` of some symbols. -/
theorem outputIsOverTheAlphabet : Obligations.OutputIsOverTheAlphabet := by
  rintro len s i hlen (rfl | rfl)
  · exact ⟨_, exec_map hlen s, inAlphabet_mapCells_iff s.sym _⟩
  · exact ⟨_, exec_encode hlen s, inAlphabet_mapCells_iff _ _⟩

/-- A character of the string does not depend on the precision it is encoded at (40_encode_path.md R137 (c)). -/
theorem encodedCell_eq (lon lat : Word) {p : Nat} {k : Fin 12} (hk : k.val < p) :
    (mapCells (packSyms lon lat p) p)[k] = alpha (symbolOf (streamBit lon lat) k.val) := by
  rw [mapCells_getElem, if_pos hk, packSyms_getElem, if_pos hk]

/-- Settles O39: a cell below both precisions is the same character of the one stream. -/
theorem encodeHasPrefixProperty : Obligations.EncodeHasPrefixProperty := by
  intro len len' s hlen hlen' hlt
  refine ⟨_, _, exec_encode hlen s, exec_encode hlen' s, fun k hk => ?_⟩
  exact (encodedCell_eq s.lon s.lat hk).trans (encodedCell_eq s.lon s.lat (hk.trans hlt)).symm

/-! ### What the string determines -/

/-- The characters determine the symbols they are of, since `ALPHA` is injective (10_state.md R37 (a)). -/
theorem mapCells_eq_iff (a b : Cells Sym) (p : Nat) :
    mapCells a p = mapCells b p ↔ ∀ k : Fin 12, k.val < p → a[k] = b[k] := by
  refine ⟨fun h k hk => alpha_injective ?_, mapCells_congr⟩
  have hcell : (mapCells a p)[k] = (mapCells b p)[k] := by rw [h]
  rwa [mapCells_getElem, if_pos hk, mapCells_getElem, if_pos hk] at hcell

/-- The symbols determine the stream below `5P`, and it them. -/
theorem packSyms_eq_below_iff (lon lat lon' lat' : Word) {p : Nat} (hp : p ≤ 12) :
    (∀ k : Fin 12, k.val < p → (packSyms lon lat p)[k] = (packSyms lon' lat' p)[k]) ↔
      ∀ i, i < 5 * p → streamBit lon lat i = streamBit lon' lat' i := by
  constructor
  · intro h i hi
    rw [← symBit_packSyms lon lat p i hp hi, ← symBit_packSyms lon' lat' p i hp hi, symBit_congr hp h hi]
  · intro h k hk
    rw [packSyms_getElem, packSyms_getElem, if_pos hk, if_pos hk]
    exact symbolOf_congr fun i _ hi => h i (by omega)

theorem streamBit_even (lon lat : Word) (j : Nat) : streamBit lon lat (2 * j) = lon.getLsbD (31 - j) := by
  rw [streamBit_eq, if_pos (by omega), show 2 * j / 2 = j by omega]

theorem streamBit_odd (lon lat : Word) (j : Nat) : streamBit lon lat (2 * j + 1) = lat.getLsbD (31 - j) := by
  rw [streamBit_eq, if_neg (by omega), show (2 * j + 1) / 2 = j by omega]

/-- The top bits of a lane, by their position in the lane (10_state.md R40). -/
theorem sameTopBits_iff {n : Nat} (hn : n ≤ 32) (a b : Word) :
    SameTopBits n a b ↔ ∀ j, j < n → a.getLsbD (31 - j) = b.getLsbD (31 - j) := by
  constructor
  · exact fun h j hj => h ⟨31 - j, by omega⟩ (by show 32 - n ≤ 31 - j; omega)
  · intro h r hr
    have hbit := h (31 - r.val) (by omega)
    rwa [show 31 - (31 - r.val) = r.val by omega] at hbit

/-- The stream below `m` is the top `ceil(m/2)` bits of one lane and the top `floor(m/2)` of the other (10_state.md R31,
R33). -/
theorem streamBit_eq_below_iff (lon lat lon' lat' : Word) {m : Nat} (hm : m ≤ 63) :
    (∀ i, i < m → streamBit lon lat i = streamBit lon' lat' i) ↔
      SameTopBits ((m + 1) / 2) lon lon' ∧ SameTopBits (m / 2) lat lat' := by
  rw [sameTopBits_iff (by omega), sameTopBits_iff (by omega)]
  constructor
  · intro h
    constructor
    · intro j hj
      rw [← streamBit_even lon lat, ← streamBit_even lon' lat', h _ (by omega)]
    · intro j hj
      rw [← streamBit_odd lon lat, ← streamBit_odd lon' lat', h _ (by omega)]
  · rintro ⟨hlon, hlat⟩ i hi
    obtain ⟨j, rfl | rfl⟩ := Nat.even_or_odd' i
    · rw [streamBit_even, streamBit_even, hlon j (by omega)]
    · rw [streamBit_odd, streamBit_odd, hlat j (by omega)]

/-- Settles O40: characters, symbols, stream and used lane bits determine each other, in this order. -/
theorem stringDeterminesUsedBits : Obligations.StringDeterminesUsedBits := by
  intro len s s' hlen
  have hp : len.toNat ≤ 12 := hlen.2
  refine ⟨_, _, exec_encode hlen s, exec_encode hlen s', ?_⟩
  rw [succeedData_ch, setCh_ch, succeedData_ch, setCh_ch, mapCells_eq_iff, packSyms_eq_below_iff _ _ _ _ hp,
    streamBit_eq_below_iff _ _ _ _ (by omega)]

/-! ### The bit-serial PACK -/

theorem setCell_getElem {α : Type} (buf : Cells α) (k : Nat) (v : α) (j : Fin 12) :
    (setCell buf k v)[j] = if j.val = k then v else buf[j] := tabulate_getElem _ _

/-- The number that the first `t` bits of symbol `k` of a stream write, most significant first: the accumulator of the
loop of 40_encode_path.md R132. -/
def symbolPrefix (b : Nat → Bool) (k t : Nat) : Nat := bitsValue ((List.range t).map fun j => b (5 * k + j))

@[simp] theorem symbolPrefix_zero (b : Nat → Bool) (k : Nat) : symbolPrefix b k 0 = 0 := rfl

theorem symbolPrefix_succ (b : Nat → Bool) (k t : Nat) :
    symbolPrefix b k (t + 1) = 2 * symbolPrefix b k t + (b (5 * k + t)).toNat := by
  simp [symbolPrefix, List.range_succ, bitsValue_append]

theorem symbolPrefix_lt (b : Nat → Bool) (k t : Nat) : symbolPrefix b k t < 2 ^ t := by
  induction t with
  | zero => simp
  | succ t ih =>
    have hbit := Bool.toNat_le (b (5 * k + t))
    rw [symbolPrefix_succ, pow_succ]
    omega

/-- The loop's accumulator never overflows its five bits. -/
theorem symbolPrefix_succ_mod (b : Nat → Bool) (k : Nat) {t : Nat} (ht : t < 5) :
    (2 * symbolPrefix b k t + (b (5 * k + t)).toNat) % 32 = symbolPrefix b k (t + 1) := by
  rw [← symbolPrefix_succ]
  exact Nat.mod_eq_of_lt ((symbolPrefix_lt b k (t + 1)).trans_le (Nat.pow_le_pow_right (n := 2) (by omega) ht))

/-- Five bits taken are the whole symbol (10_state.md R32). -/
theorem symbolOf_eq_symbolPrefix (b : Nat → Bool) (k : Nat) : symbolOf b k = BitVec.ofNat 5 (symbolPrefix b k 5) := by
  rw [symbolOf]
  congr 1
  simp only [symbolPrefix_succ, symbolPrefix_zero, Nat.add_zero]
  omega

/-- A buffer whose first `m` cells have been given the symbols of a stream. -/
def writeSymbols (b : Nat → Bool) (buf : Cells Sym) (m : Nat) : Cells Sym :=
  tabulate fun j => if j.val < m then symbolOf b j.val else buf[j]

theorem writeSymbols_getElem (b : Nat → Bool) (buf : Cells Sym) (m : Nat) (j : Fin 12) :
    (writeSymbols b buf m)[j] = if j.val < m then symbolOf b j.val else buf[j] := tabulate_getElem _ _

theorem writeSymbols_zero (b : Nat → Bool) (buf : Cells Sym) : writeSymbols b buf 0 = buf :=
  cells_ext fun j => by rw [writeSymbols_getElem, if_neg (Nat.not_lt_zero _)]

/-- Symbol `m` goes on from the first `m`. -/
theorem setCell_writeSymbols (b : Nat → Bool) (buf : Cells Sym) (m : Nat) :
    setCell (writeSymbols b buf m) m (symbolOf b m) = writeSymbols b buf (m + 1) := by
  apply cells_ext
  intro j
  rw [setCell_getElem, writeSymbols_getElem, writeSymbols_getElem]
  obtain hj | hj | hj := lt_trichotomy j.val m
  · rw [if_neg hj.ne, if_pos hj, if_pos (by omega)]
  · rw [if_pos hj, if_pos (by omega), hj]
  · rw [if_neg hj.ne', if_neg (by omega), if_neg (by omega)]

/-- The invariant of the loop of 40_encode_path.md R132: its variables after `n` iterations, on a buffer that held
`buf`. -/
def packLoopAfter (lon lat : Word) (buf : Cells Sym) (n : Nat) : PackLoop where
  acc := symbolPrefix (streamBit lon lat) (n / 5) (n % 5)
  cnt := n % 5
  k := n / 5
  jlon := (n + 1) / 2
  jlat := n / 2
  sym := writeSymbols (streamBit lon lat) buf (n / 5)

/-- Iteration `n` takes stream bit `n` and advances the counter of its lane. -/
theorem takeLaneBit_packLoopAfter (lon lat : Word) (buf : Cells Sym) (n : Nat) :
    takeLaneBit lon lat (packLoopAfter lon lat buf n) n = (streamBit lon lat n, (n + 2) / 2, (n + 1) / 2) := by
  obtain ⟨j, rfl | rfl⟩ := Nat.even_or_odd' n
  · have haxis : axis (2 * j) = .longitude := axis_streamIndex .longitude j
    have hlon : (2 * j + 1) / 2 = j := by omega
    rw [takeLaneBit, haxis, streamBit_even]
    simp only [packLoopAfter, hlon, Prod.mk.injEq, true_and]
    omega
  · have haxis : axis (2 * j + 1) = .latitude := axis_streamIndex .latitude j
    have hlat : (2 * j + 1) / 2 = j := by omega
    rw [takeLaneBit, haxis, streamBit_odd]
    simp only [packLoopAfter, hlat, Prod.mk.injEq, true_and]
    omega

/-- One iteration keeps the invariant: it completes a symbol or extends the one being gathered. -/
theorem packIteration_packLoopAfter (lon lat : Word) (buf : Cells Sym) (n : Nat) :
    packIteration lon lat (packLoopAfter lon lat buf n) n = packLoopAfter lon lat buf (n + 1) := by
  have hacc : (2 * (packLoopAfter lon lat buf n).acc + (streamBit lon lat n).toNat) % 32 =
      symbolPrefix (streamBit lon lat) (n / 5) (n % 5 + 1) := by
    have h := symbolPrefix_succ_mod (streamBit lon lat) (n / 5) (Nat.mod_lt n (by decide : 5 > 0))
    rwa [Nat.div_add_mod] at h
  have hcount : (packLoopAfter lon lat buf n).cnt = n % 5 := rfl
  rw [packIteration, takeLaneBit_packLoopAfter]
  simp only [hacc, hcount]
  by_cases hfull : n % 5 + 1 = 5
  · have hk : (n + 1) / 5 = n / 5 + 1 := by omega
    have hcnt : (n + 1) % 5 = 0 := by omega
    rw [if_pos hfull, hfull, ← symbolOf_eq_symbolPrefix]
    simp only [packLoopAfter, setCell_writeSymbols, hk, hcnt, symbolPrefix_zero]
  · have hk : (n + 1) / 5 = n / 5 := by omega
    have hcnt : (n + 1) % 5 = n % 5 + 1 := by omega
    rw [if_neg hfull]
    simp only [packLoopAfter, hk, hcnt]

theorem foldl_packIteration (lon lat : Word) (buf : Cells Sym) (n : Nat) :
    (List.range n).foldl (packIteration lon lat) ⟨0, 0, 0, 0, 0, buf⟩ = packLoopAfter lon lat buf n := by
  induction n with
  | zero => exact congrArg (PackLoop.mk 0 0 0 0 0) (writeSymbols_zero _ buf).symm
  | succ n ih => rw [List.range_succ, List.foldl_append, ih]; exact packIteration_packLoopAfter lon lat buf n

/-- Settles O42: the loop's invariant after its `5P` iterations. -/
theorem serialPackEqualsClosedForm : Obligations.SerialPackEqualsClosedForm := by
  intro lon lat before p _
  have hk : 5 * p / 5 = p := by omega
  rw [show packSerial lon lat before p = packLoopAfter lon lat before (5 * p) from foldl_packIteration _ _ _ _]
  refine ⟨fun k => ?_, hk, rfl, rfl⟩
  simp only [packLoopAfter, hk, writeSymbols_getElem]
  by_cases hkp : k.val < p
  · rw [if_pos hkp, if_pos hkp, packSyms_getElem, if_pos hkp]
  · rw [if_neg hkp, if_neg hkp]

end Sys2Proof.Machine
end

section
/-! PROOFS. The statements of 41_decode_path.md: what LOOKUP, UNPACK and DECODE write or report (R151, R153, R156), when
they succeed (R159), LOOKUP element by element (R152), DECODE as LOOKUP then UNPACK (R157), the round trips (R158), and
the bit-serial UNPACK (R154). -/

namespace Sys2Proof.Machine

/-! ### The three commands -/

/-- Settles O20: `exec_lookup` gives the next state on valid cells, `exec_lookup_bad` the report of a first bad cell. -/
theorem lookupRecoversSymbols : Obligations.LookupRecoversSymbols :=
  ⟨fun _ => rfl, fun _ _ hlen hv => ⟨_, exec_lookup hlen hv, symbolsOfChars_lookupSyms hv,
    dataSuccess_succeedData hlen rfl rfl rfl, rfl, rfl, rfl⟩, fun _ _ _ hlen hk => exec_lookup_bad hlen hk⟩

/-- Settles O21: `exec_unpack` gives the next state, and its lanes are those of R153. -/
theorem unpackSplitsStream : Obligations.UnpackSplitsStream :=
  ⟨fun _ => rfl, fun _ s hlen => ⟨_, exec_unpack hlen s, lanesOfSymbols_unpackLane s.sym _ hlen.2,
    dataSuccess_succeedData hlen rfl rfl rfl, rfl, rfl⟩⟩

/-- Settles O22: on valid cells `exec_decode` gives the symbols of R151 and the lanes of R153 on them, on a first bad
cell `exec_decode_bad` gives its report. -/
theorem decodeRecoversLanes : Obligations.DecodeRecoversLanes :=
  ⟨fun _ => rfl, fun _ _ hlen hv => ⟨_, exec_decode hlen hv, symbolsOfChars_lookupSyms hv,
    lanesOfSymbols_unpackLane _ _ hlen.2, dataSuccess_succeedData hlen rfl rfl rfl, rfl⟩,
    fun _ _ _ hlen hk => exec_decode_bad hlen hk⟩

/-! ### When the check succeeds -/

theorem takeFault_err_ne_zero (s : State) (f : CmdFault) : (s.takeFault f).status.err ≠ 0#3 := f.code_ne_zero

/-- The report of LOOKUP and DECODE is 0 exactly on valid cells (41_decode_path.md R159). -/
theorem checked_err_eq_zero_iff {len : BitVec 4} {s t : State} {i : Instr} (hlen : Legal len)
    (hi : i = .lookup len ∨ i = .decode len) (h : exec i s = .next t) :
    t.status.err = 0#3 ↔ ValidCells s.ch len.toNat := by
  obtain hv | ⟨k, hk⟩ := validCells_or_firstBad s.ch len.toNat
  · have herr : t.status.err = 0#3 := by
      obtain rfl | rfl := hi
      · rw [exec_lookup hlen hv] at h; cases h; rfl
      · rw [exec_decode hlen hv] at h; cases h; rfl
    exact iff_of_true herr hv
  · have hfault : t = s.takeFault (.invalidCharacter k s.ch[k]) := by
      obtain rfl | rfl := hi
      · rw [exec_lookup_bad hlen hk] at h; cases h; rfl
      · rw [exec_decode_bad hlen hk] at h; cases h; rfl
    exact iff_of_false (hfault ▸ takeFault_err_ne_zero s _) hk.not_valid

/-- Settles O24: both commands answer a next state, with the report of `checked_err_eq_zero_iff`. -/
theorem rejectionIsExact : Obligations.RejectionIsExact := by
  intro len s i hlen hi
  obtain ⟨t, ht, -⟩ := exec_effect i s
  exact ⟨t, ht, checked_err_eq_zero_iff hlen hi ht⟩

/-- The inversion of a LOOKUP that succeeds. -/
theorem lookup_success {len : BitVec 4} {s t : State} (hlen : Legal len) (h : exec (.lookup len) s = .next t)
    (herr : t.status.err = 0#3) :
    ValidCells s.ch len.toNat ∧ t = (s.setSym (lookupSyms s.ch len.toNat)).succeedData len.toNat := by
  have hv := (checked_err_eq_zero_iff hlen (.inl rfl) h).mp herr
  rw [exec_lookup hlen hv] at h
  cases h
  exact ⟨hv, rfl⟩

/-- The inversion of a DECODE that succeeds. -/
theorem decode_success {len : BitVec 4} {s t : State} (hlen : Legal len) (h : exec (.decode len) s = .next t)
    (herr : t.status.err = 0#3) :
    ValidCells s.ch len.toNat ∧ t = (((s.setSym (lookupSyms s.ch len.toNat)).setLon
      (unpackLane .longitude (lookupSyms s.ch len.toNat) len.toNat)).setLat
      (unpackLane .latitude (lookupSyms s.ch len.toNat) len.toNat)).succeedData len.toNat := by
  have hv := (checked_err_eq_zero_iff hlen (.inr rfl) h).mp herr
  rw [exec_decode hlen hv] at h
  cases h
  exact ⟨hv, rfl⟩

/-- Settles O32: a symbol of `lookupSyms` is written from the cell of its index, or is 0, once the check has passed;
else the check has found a first bad cell. -/
theorem lookupIsElementwise : Obligations.LookupIsElementwise := by
  intro len s hlen
  obtain ⟨t, ht, -⟩ := exec_effect (.lookup len) s
  have hcheck := checked_err_eq_zero_iff hlen (.inl rfl) ht
  refine ⟨t, ht, hcheck, fun herr => ?_, fun herr s' t' ht' herr' k => ?_⟩
  · obtain ⟨k, hk⟩ := (validCells_or_firstBad s.ch len.toNat).resolve_left (mt hcheck.mpr herr)
    rw [exec_lookup_bad hlen hk] at ht
    cases ht
    refine ⟨k, hk, ?_⟩
    have hidx : k.val % 2 ^ 4 = k.val := Nat.mod_eq_of_lt (by omega)
    rw [takeFault_status, faulted_eidx, CmdFault.eidx, BitVec.toNat_ofNat, hidx]
  · obtain ⟨-, rfl⟩ := lookup_success hlen ht herr
    obtain ⟨-, rfl⟩ := lookup_success hlen ht' herr'
    simp only [succeedData_sym, setSym_sym, lookupSyms_getElem]
    exact ⟨fun _ hcell => by rw [hcell], fun hk => if_neg (not_lt.mpr hk)⟩

/-- Settles O34: on valid cells UNPACK sees LOOKUP's symbols and a report already cleared; on others, and on a precision
that is not legal, the two reports are the same. -/
theorem lookupThenUnpackIsDecode : Obligations.LookupThenUnpackIsDecode := by
  intro len s
  by_cases hlen : Legal len
  · obtain hv | ⟨k, hk⟩ := validCells_or_firstBad s.ch len.toNat
    · exact ⟨_, exec_lookup hlen hv, fun herr => absurd rfl herr,
        fun _ => ⟨_, exec_unpack hlen _, exec_decode hlen hv⟩⟩
    · exact ⟨_, exec_lookup_bad hlen hk, fun _ => exec_decode_bad hlen hk,
        fun herr => absurd herr (takeFault_err_ne_zero s _)⟩
  · exact ⟨_, withPrecision_illegal hlen s _, fun _ => withPrecision_illegal hlen s _,
      fun herr => absurd herr (takeFault_err_ne_zero s _)⟩

/-! ### The round trips -/

theorem lookupSyms_mapCells (sym : Cells Sym) {p : Nat} {k : Fin 12} (hk : k.val < p) :
    (lookupSyms (mapCells sym p) p)[k] = sym[k] := by
  rw [lookupSyms_getElem, if_pos hk, mapCells_getElem, if_pos hk, inv_alpha, Option.getD_some]

theorem mapCells_lookupSyms {ch : Cells Byte} {p : Nat} (hv : ValidCells ch p) {k : Fin 12} (hk : k.val < p) :
    (mapCells (lookupSyms ch p) p)[k] = ch[k] := by
  rw [mapCells_getElem, if_pos hk, lookupSyms_isCodeOf hv k hk]

theorem packSyms_unpackLane (sym : Cells Sym) {p : Nat} (hp : p ≤ 12) {k : Fin 12} (hk : k.val < p) :
    (packSyms (unpackLane .longitude sym p) (unpackLane .latitude sym p) p)[k] = sym[k] := by
  apply sym_ext
  intro t ht
  rw [getLsbD_packSyms _ _ _ _ _ ht, decide_eq_true hk, Bool.true_and, streamBit_unpackLane _ _ _ hp (by omega),
    symBit_eq _ _ _ ht]

/-- Lanes written from symbols have the symbols' characters. -/
theorem mapCells_packSyms_unpackLane (sym : Cells Sym) {p : Nat} (hp : p ≤ 12) :
    mapCells (packSyms (unpackLane .longitude sym p) (unpackLane .latitude sym p) p) p = mapCells sym p :=
  mapCells_congr fun _ hk => packSyms_unpackLane sym hp hk

/-- A bit of a lane read back from PACK's symbols is the stream bit of its place, or cut off. -/
theorem getLsbD_unpackLane_packSyms (lon lat : Word) (a : Axis) {p r : Nat} (hp : p ≤ 12) (hr : r < 32) :
    (unpackLane a (packSyms lon lat p) p).getLsbD r =
      (decide (streamIndex a (31 - r) < 5 * p) && streamBit lon lat (streamIndex a (31 - r))) := by
  rw [getLsbD_unpackLane, decide_eq_true hr, Bool.true_and]
  by_cases hi : streamIndex a (31 - r) < 5 * p
  · rw [symBit_packSyms _ _ _ _ hp hi]
  · simp [hi]

/-- The lanes read back from PACK's symbols are the used bits of the lanes (41_decode_path.md R158 (b), (c)). -/
theorem topBits_unpackLane_packSyms (lon lat : Word) {p : Nat} (hp : p ≤ 12) :
    TopBits ((5 * p + 1) / 2) lon (unpackLane .longitude (packSyms lon lat p) p) ∧
      TopBits (5 * p / 2) lat (unpackLane .latitude (packSyms lon lat p) p) := by
  have hreg (r : Fin 32) : 31 - (31 - r.val) = r.val := by omega
  constructor <;> intro r
  · have hused : 2 * (31 - r.val) < 5 * p ↔ 32 - (5 * p + 1) / 2 ≤ r.val := by omega
    rw [getLsbD_unpackLane_packSyms _ _ _ hp r.isLt, streamIndex, streamBit_even, hreg]
    simp only [hused]
  · have hused : 2 * (31 - r.val) + 1 < 5 * p ↔ 32 - 5 * p / 2 ≤ r.val := by omega
    rw [getLsbD_unpackLane_packSyms _ _ _ hp r.isLt, streamIndex, streamBit_odd, hreg]
    simp only [hused]

/-- Settles O35: the lanes give back the symbols, and the symbols their characters. -/
theorem encodeAfterDecodeReproducesString : Obligations.EncodeAfterDecodeReproducesString := by
  intro len s t hlen ht herr
  obtain ⟨hv, rfl⟩ := decode_success hlen ht herr
  refine ⟨_, exec_encode hlen _, fun k => ?_⟩
  simp only [succeedData_ch, setCh_ch, succeedData_lon, succeedData_lat, setLat_lon, setLat_lat, setLon_lon,
    mapCells_packSyms_unpackLane _ hlen.2]
  exact ⟨mapCells_lookupSyms hv, fun hk => (mapCells_getElem _ _ k).trans (if_neg (not_lt.mpr hk))⟩

/-- Settles O36: the characters give back the symbols, and the symbols the used bits of the lanes. -/
theorem decodeAfterEncodeReproducesLanes : Obligations.DecodeAfterEncodeReproducesLanes := by
  intro len s t hlen ht
  rw [exec_encode hlen] at ht
  cases ht
  have hlane (a : Axis) :
      unpackLane a (lookupSyms (mapCells (packSyms s.lon s.lat len.toNat) len.toNat) len.toNat) len.toNat =
        unpackLane a (packSyms s.lon s.lat len.toNat) len.toNat :=
    unpackLane_congr hlen.2 (fun _ hk => lookupSyms_mapCells _ hk) a
  refine ⟨_, exec_decode hlen (validCells_mapCells _ _), rfl, ?_⟩
  simp only [succeedData_lon, succeedData_lat, setLat_lon, setLat_lat, setLon_lon, succeedData_ch, setCh_ch, hlane]
  exact topBits_unpackLane_packSyms s.lon s.lat hlen.2

/-- Settles O37: each clause is the law of its two operand functions. -/
theorem stagesInvertEachOther : Obligations.StagesInvertEachOther := by
  intro len s t hlen
  refine ⟨fun ht => ?_, fun ht => ?_, fun ht => ?_, fun ht herr => ?_⟩
  · rw [exec_pack hlen] at ht
    cases ht
    exact ⟨_, exec_unpack hlen _, topBits_unpackLane_packSyms s.lon s.lat hlen.2⟩
  · rw [exec_unpack hlen] at ht
    cases ht
    exact ⟨_, exec_pack hlen _, fun k hk => packSyms_unpackLane s.sym hlen.2 hk⟩
  · rw [exec_map hlen] at ht
    cases ht
    exact ⟨_, exec_lookup hlen (validCells_mapCells _ _), rfl, fun k hk => lookupSyms_mapCells s.sym hk⟩
  · obtain ⟨hv, rfl⟩ := lookup_success hlen ht herr
    exact ⟨_, exec_map hlen _, fun k hk => mapCells_lookupSyms hv hk⟩

/-! ### The bit-serial UNPACK -/

@[simp] theorem getLsbD_setRegBit (w : Word) (r : Nat) (b : Bool) (j : Nat) :
    (setRegBit w r b).getLsbD j = (decide (j < 32) && if j = r then b else w.getLsbD j) := getLsbD_bitsOf _ _ _

/-- The lane of an axis once the first `n` bits of the stream have been dealt out: UNPACK's lane, cut at any stream
index. -/
def lanePrefix (a : Axis) (sym : Cells Sym) (n : Nat) : Word :=
  bitsOf 32 fun r => decide (streamIndex a (31 - r) < n) && symBit sym (streamIndex a (31 - r))

theorem getLsbD_lanePrefix (a : Axis) (sym : Cells Sym) (n r : Nat) :
    (lanePrefix a sym n).getLsbD r =
      (decide (r < 32) && (decide (streamIndex a (31 - r) < n) && symBit sym (streamIndex a (31 - r)))) :=
  getLsbD_bitsOf _ _ _

theorem lanePrefix_zero (a : Axis) (sym : Cells Sym) : lanePrefix a sym 0 = 0#32 := by
  apply BitVec.eq_of_getLsbD_eq
  intro r _
  simp [getLsbD_lanePrefix]

theorem lanePrefix_symw_mul (a : Axis) (sym : Cells Sym) (p : Nat) :
    lanePrefix a sym (5 * p) = unpackLane a sym p := rfl

theorem streamIndex_injective (a : Axis) : Function.Injective (streamIndex a) := by
  intro i j h
  cases a <;> simp only [streamIndex] at h <;> omega

/-- A lane takes a stream bit of its own axis at the next register bit. -/
theorem lanePrefix_succ_own (a : Axis) (sym : Cells Sym) {j : Nat} (hj : j < 32) :
    lanePrefix a sym (streamIndex a j + 1) =
      setRegBit (lanePrefix a sym (streamIndex a j)) (31 - j) (symBit sym (streamIndex a j)) := by
  apply BitVec.eq_of_getLsbD_eq
  intro r hr
  rw [getLsbD_setRegBit, getLsbD_lanePrefix, getLsbD_lanePrefix]
  by_cases hrj : r = 31 - j
  · have hjr : 31 - r = j := by omega
    rw [if_pos hrj, hjr]
    simp
  · have hne : streamIndex a (31 - r) ≠ streamIndex a j := fun h => by
      have hjr := streamIndex_injective a h
      omega
    have hlt : streamIndex a (31 - r) < streamIndex a j + 1 ↔ streamIndex a (31 - r) < streamIndex a j := by omega
    rw [if_neg hrj]
    simp [hr, hlt]

/-- A lane does not see a stream bit of the other axis. -/
theorem lanePrefix_succ_other {a : Axis} (sym : Cells Sym) {n : Nat} (hn : axis n ≠ a) :
    lanePrefix a sym (n + 1) = lanePrefix a sym n := by
  apply BitVec.eq_of_getLsbD_eq
  intro r _
  have hne : streamIndex a (31 - r) ≠ n := fun h => hn (h ▸ axis_streamIndex a _)
  have hlt : streamIndex a (31 - r) < n + 1 ↔ streamIndex a (31 - r) < n := by omega
  simp only [getLsbD_lanePrefix, hlt]

/-- The invariant of the loops of 41_decode_path.md R154: their variables once the global counter is `n`. -/
def unpackLoopAfter (sym : Cells Sym) (n : Nat) : UnpackLoop where
  lon := lanePrefix .longitude sym n
  lat := lanePrefix .latitude sym n
  jlon := (n + 1) / 2
  jlat := n / 2
  i := n

/-- One inner iteration keeps the invariant: the parity of the global counter sends the bit to the lane whose next bit
it is. -/
theorem unpackIteration_unpackLoopAfter (sym : Cells Sym) {k : Fin 12} {t : Nat} (ht : t < 5) :
    unpackIteration sym k.val (unpackLoopAfter sym (5 * k.val + t)) t = unpackLoopAfter sym (5 * k.val + t + 1) := by
  have hbit : (if h : k.val < Config.ncell then (sym[k.val]).getLsbD (4 - t) else false) =
      symBit sym (5 * k.val + t) := (dif_pos k.isLt).trans (symBit_eq sym k t ht).symm
  have hbound : 5 * k.val + t < 60 := by omega
  rw [unpackIteration, hbit]
  generalize 5 * k.val + t = n at hbound ⊢
  obtain ⟨j, rfl | rfl⟩ := Nat.even_or_odd' n
  · have haxis : axis (2 * j) = .longitude := axis_streamIndex .longitude j
    obtain ⟨hlon, hlonNext, hlat⟩ : (2 * j + 1) / 2 = j ∧ (2 * j + 1 + 1) / 2 = j + 1 ∧ 2 * j / 2 = j := by omega
    have hown := lanePrefix_succ_own .longitude sym (j := j) (by omega)
    have hother := lanePrefix_succ_other sym (n := 2 * j) (a := .latitude) (by rw [haxis]; decide)
    simp only [streamIndex] at hown
    simp only [unpackLoopAfter, haxis, hlon, hlonNext, hlat, hown, hother]
  · have haxis : axis (2 * j + 1) = .latitude := axis_streamIndex .latitude j
    obtain ⟨hlat, hlon, hlonNext⟩ :
        (2 * j + 1) / 2 = j ∧ (2 * j + 1 + 1) / 2 = j + 1 ∧ (2 * j + 1 + 1 + 1) / 2 = j + 1 := by omega
    have hown := lanePrefix_succ_own .latitude sym (j := j) (by omega)
    have hother := lanePrefix_succ_other sym (n := 2 * j + 1) (a := .longitude) (by rw [haxis]; decide)
    simp only [streamIndex] at hown
    simp only [unpackLoopAfter, haxis, hlat, hlon, hlonNext, hown, hother]

/-- The inner loop, stopped after `t` bits of symbol `k`. -/
theorem foldl_unpackIteration (sym : Cells Sym) (k : Fin 12) {t : Nat} (ht : t ≤ 5) :
    (List.range t).foldl (unpackIteration sym k.val) (unpackLoopAfter sym (5 * k.val)) =
      unpackLoopAfter sym (5 * k.val + t) := by
  induction t with
  | zero => rfl
  | succ t ih =>
    rw [List.range_succ, List.foldl_append, ih (by omega)]
    exact unpackIteration_unpackLoopAfter sym (by omega)

theorem unpackSerial_zero (sym : Cells Sym) : unpackSerial sym 0 = unpackLoopAfter sym 0 := by
  rw [unpackLoopAfter, lanePrefix_zero, lanePrefix_zero]
  rfl

theorem unpackSerial_succ (sym : Cells Sym) (p : Nat) :
    unpackSerial sym (p + 1) = (List.range 5).foldl (unpackIteration sym p) (unpackSerial sym p) := by
  rw [unpackSerial, List.range_succ (n := p), List.foldl_append]
  rfl

theorem unpackSerial_eq_unpackLoopAfter (sym : Cells Sym) {p : Nat} (hp : p ≤ 12) :
    unpackSerial sym p = unpackLoopAfter sym (5 * p) := by
  induction p with
  | zero => exact unpackSerial_zero sym
  | succ p ih =>
    rw [unpackSerial_succ, ih (by omega)]
    exact foldl_unpackIteration sym ⟨p, by omega⟩ le_rfl

/-- Settles O43: the loops' invariant once the counter is `5P`. -/
theorem serialUnpackEqualsClosedForm : Obligations.SerialUnpackEqualsClosedForm := by
  intro sym p hp
  rw [unpackSerial_eq_unpackLoopAfter sym hp, unpackLoopAfter, lanePrefix_symw_mul, lanePrefix_symw_mul]

end Sys2Proof.Machine
end

section
/-! PROOFS. The statements of 42_control.md: NOP (R170), CLEAR (R171) and CLRERR (R172). -/

namespace Sys2Proof.Machine

/-! ### What each control command makes of the state -/

theorem exec_nop (s : State) : exec .nop s = .next { s with status := s.status.success } := rfl

/-- CLEAR leaves of the state before it the sticky bit and the model's own two fields (logs 1 and 2). -/
theorem exec_clear (s : State) :
    exec .clear s = .next { State.reset with
      status := s.status.success, pending := s.pending, response := s.response } := by
  simp only [State.reset, ← tabulate_const_eq_replicate]
  rfl

theorem exec_clrerr (s : State) : exec .clrerr s = .next { s with status := Status.zero } := rfl

/-! ### The acknowledgement -/

/-- A write that clears `SERR` reaches `STATUS`, so it is a command; of the reports a command leaves, only CLRERR's has
`SERR` clear where it was set (10_state.md R45). -/
theorem WriteEffect.clrerr_of_serr_cleared {s t : State} {w : Word} {r : Reg} (h : WriteEffect s w r t)
    (hset : s.status.serr = true) (hclear : t.status.serr = false) : r = .cmd ∧ w = 0x00000002#32 := by
  obtain rfl : r = .cmd := writeEffect_status_change h fun hst => by simp [hst, hset] at hclear
  obtain ⟨hw, -⟩ | ⟨-, hok | ⟨f, -, hfault⟩⟩ := writeEffect_cmd_status h
  · exact ⟨rfl, hw⟩
  · simp [hok, hset] at hclear
  · simp [hfault] at hclear

/-- The fields of a word with the `op` of CLRERR and any `len` (30_encoding.md R101 Table F). -/
theorem clrerr_len_word_fields : ∀ len : BitVec 4,
    opField (len.setWidth 32 <<< 8 ||| 0x02#32) = 0b0010#4 ∧
      lenField (len.setWidth 32 <<< 8 ||| 0x02#32) = len ∧
      reservedClear (len.setWidth 32 <<< 8 ||| 0x02#32) = true := by decide

/-- Step 3 of 30_encoding.md R100 for CLRERR. -/
theorem decode_clrerr_len_word {len : BitVec 4} (h : len ≠ 0#4) :
    decode (len.setWidth 32 <<< 8 ||| 0x02#32) = .error .controlLen := by
  obtain ⟨hop, hlen, hclear⟩ := clrerr_len_word_fields len
  rw [decode, if_pos hclear, hop, hlen]
  exact if_neg h

/-- Settles O16: CLRERR is `acknowledge`, a write that clears `SERR` is its word, and its `op` with a `len` that is not
0 does not decode. -/
theorem clrerrAcknowledges : Obligations.ClrerrAcknowledges := by
  refine ⟨rfl, exec_clrerr, fun s t r w h hset hclear => ?_, fun s len hlen => ?_⟩
  · obtain ⟨t', ht', he⟩ := writeReg_effect s w r
    obtain rfl : t' = t := by injection ht'.symm.trans h
    exact he.clrerr_of_serr_cleared hset hclear
  · rw [runWord_of_error (decode_clrerr_len_word hlen), takeFault_eq]
    rfl

/-! ### The report and the data state -/

/-- Settles O14: NOP writes the report of a success. -/
theorem nopClearsReportOnly : Obligations.NopClearsReportOnly := ⟨rfl, exec_nop⟩

/-- Settles O15: CLEAR gives the reset state but for `SERR`, which CLRERR clears before or after it. -/
theorem clearZeroesDataState : Obligations.ClearZeroesDataState := by
  refine ⟨rfl, fun s => ⟨⟨_, exec_clear s, rfl, rfl, reset_cells, rfl, ⟨rfl, rfl, rfl, rfl⟩, rfl, rfl⟩, ?_⟩⟩
  intro t t' ht ht'
  cases (exec_clear s).symm.trans ht
  cases (exec_clrerr s).symm.trans ht'
  exact ⟨exec_clrerr _, exec_clear _⟩

end Sys2Proof.Machine
end

section
/-! PROOFS. The statements of 60_exceptions.md: the report of each fault, IllegalCommand (R183), InvalidPrecision (R182)
and InvalidCharacter (R181), and that a fault changes nothing but its report (R185, R186). -/

namespace Sys2Proof.Machine

/-! ### Faults the word alone decides -/

/-- The step on a word that faults whatever the state: the report, and the model's own two fields (logs 1 and 2). -/
theorem step_of_runWord_fault {s : State} {w : Word} {rest : List HostAction} {f : CmdFault}
    (hp : s.pending = .write .bits32 (offsetOf .cmd) w :: rest) (hrun : ∀ s, runWord s w = .next (s.takeFault f)) :
    step s = .next { s with
      pending := rest, response := some .done, status := ⟨f.code, true, f.eidx, f.ech⟩ } :=
  (step_write hp).trans (hrun _)

/-- The words that name no command (30_encoding.md R100 steps 1 to 3). -/
theorem decode_error_iff (w : Word) :
    (∃ e, decode w = .error e) ↔ (w.extractLsb' 12 20 ≠ 0#20 ∨ w.extractLsb' 4 4 ≠ 0#4 ∨
      opField w ∈ [0b0011#4, 0b0100#4, 0b1000#4, 0b1100#4, 0b1101#4, 0b1110#4, 0b1111#4] ∨
      (opField w ∈ [0b0000#4, 0b0001#4, 0b0010#4] ∧ lenField w ≠ 0#4)) := by
  by_cases hclear : reservedClear w = true
  · obtain ⟨hhigh, hlow⟩ := (reservedClear_iff w).mp hclear
    simp only [hhigh, hlow, ne_eq, not_true_eq_false, false_or]
    rw [decode, if_pos hclear]
    refine Iff.trans ?_ (decodeOp_error_iff (opField w) (lenField w))
    cases decodeOp (opField w) (lenField w) <;> simp [Except.toOption]
  · rw [decode, if_neg hclear]
    rw [reservedClear_iff, not_and_or] at hclear
    exact iff_of_true ⟨_, rfl⟩ (hclear.imp_right .inl)

/-- Settles O5: the three causes are those of `decode_error_iff`. -/
theorem illegalCommandIsReported : Obligations.IllegalCommandIsReported := by
  intro s w rest hp hcause
  obtain ⟨e, hd⟩ := (decode_error_iff w).mpr hcause
  exact step_of_runWord_fault hp (runWord_of_error hd)

/-- The operand of a data command is its precision, and the precision alone makes it well-formed. -/
theorem lenBits_wellFormed_of_mem_dataCommands {len : BitVec 4} {i : Instr} (h : i ∈ dataCommands len) :
    i.lenBits = len ∧ i.wellFormed = legalPrecision len := by
  simp only [dataCommands, List.mem_cons, List.not_mem_nil, or_false] at h
  rcases h with rfl | rfl | rfl | rfl | rfl | rfl <;> exact ⟨rfl, rfl⟩

/-- A word with clear reserved bits and the `op` of a data command names that command at the precision `len`
(30_encoding.md R104). -/
theorem decode_of_data_op {w : Word} (hclear : reservedClear w = true)
    (hop : opField w ∈ (dataCommands (lenField w)).map Instr.op) :
    ∃ i ∈ dataCommands (lenField w), decode w = .ok i := by
  obtain ⟨i, hi, hopi⟩ := List.mem_map.mp hop
  refine ⟨i, hi, ?_⟩
  rw [decode, if_pos hclear, ← hopi, ← (lenBits_wellFormed_of_mem_dataCommands hi).1, decodeOp_op_lenBits]

/-- Settles O6: the word names a data command, and at this precision that command is not well-formed. -/
theorem invalidPrecisionIsReported : Obligations.InvalidPrecisionIsReported := by
  intro s w rest hp hhigh hlow hop hlen
  obtain ⟨i, hi, hd⟩ := decode_of_data_op ((reservedClear_iff w).mpr ⟨hhigh, hlow⟩) hop
  have hnone : ∀ len ∈ [0#4, 13#4, 14#4, 15#4], legalPrecision len = false := by decide
  have hwf : i.wellFormed = false := (lenBits_wellFormed_of_mem_dataCommands hi).2.trans (hnone _ hlen)
  exact step_of_runWord_fault hp fun s₀ => (runWord_of_ok hd s₀).trans (exec_illFormed hwf s₀)

/-! ### The first offending cell -/

/-- Settles O23: cells that are not all valid have a first bad one, which both commands report. -/
theorem invalidCharacterIsReported : Obligations.InvalidCharacterIsReported := by
  rintro len s i hlen hi ⟨j, hj, hbad⟩
  have hnv : ¬ ValidCells s.ch len.toNat := fun hv => hbad (hv j hj)
  obtain ⟨k, hk⟩ := (validCells_or_firstBad s.ch len.toNat).resolve_left hnv
  refine ⟨k, hk, ?_⟩
  obtain rfl | rfl := hi
  · exact exec_lookup_bad hlen hk
  · exact exec_decode_bad hlen hk

/-! ### A fault changes its report only -/

/-- The codes of the three faults (60_exceptions.md R180). -/
theorem CmdFault.code_cases (f : CmdFault) : f.code = 1#3 ∨ f.code = 2#3 ∨ f.code = 3#3 := by
  cases f with
  | invalidCharacter => exact .inl rfl
  | invalidPrecision => exact .inr (.inl rfl)
  | illegalCommand => exact .inr (.inr rfl)

/-- A command that ends with a report of a fault made no other write. -/
theorem effect_eq_takeFault {s t : State} {i : Instr} (h : Effect s i t) (herr : t.status.err ≠ 0#3) :
    ∃ f, t = s.takeFault f := by
  cases h with
  | lookupBad | decodeBad | precision => exact ⟨_, rfl⟩
  | _ => exact absurd rfl herr

/-- A word that ends with a report of a fault made no other write. -/
theorem runWord_eq_takeFault {s t : State} {w : Word} (h : runWord s w = .next t) (herr : t.status.err ≠ 0#3) :
    ∃ f, t = s.takeFault f := by
  cases writeEffect_of_runWord h with
  | command _ he => exact effect_eq_takeFault he herr
  | illegal => exact ⟨_, rfl⟩

/-- Settles O26: the state is the old one with the report of some fault. -/
theorem faultsArePrecise : Obligations.FaultsArePrecise := by
  intro s t w h herr
  obtain ⟨f, rfl⟩ := runWord_eq_takeFault h herr
  exact ⟨rfl, rfl, f.code_cases⟩

end Sys2Proof.Machine
end

section
/-! PROOFS. The statements of 70_reset_and_hazards.md: what a command leaves depends on what it reads only (R222; the
elements are those of 10_state.md R48 Table W). -/

namespace Sys2Proof.Machine

/-- Two runs of a command give the same results: the same report and, when it is that of a success, the same outputs
(70_reset_and_hazards.md R222). -/
def SameResults (i : Instr) (t t' : State) : Prop :=
  t.status.err = t'.status.err ∧ t.status.eidx = t'.status.eidx ∧ t.status.ech = t'.status.ech ∧
    (t.status.err = 0#3 → SameOutputs i t t')

/-- Two data commands that succeed report the same, so only their outputs are left to compare. -/
theorem sameResults_succeedData {i : Instr} {s s' : State} {p : Nat}
    (h : SameOutputs i (s.succeedData p) (s'.succeedData p)) :
    SameResults i (s.succeedData p) (s'.succeedData p) := ⟨rfl, rfl, rfl, fun _ => h⟩

theorem sameResults_takeFault (i : Instr) (s s' : State) {f f' : CmdFault} (h : f = f') :
    SameResults i (s.takeFault f) (s'.takeFault f') := by
  subst h
  exact ⟨rfl, rfl, rfl, fun herr => absurd herr (takeFault_err_ne_zero s f)⟩

/-- The validity check gives the same verdict on two buffers that agree below the precision, and where it fails the same
report. -/
theorem validCells_or_firstBad_congr {a b : Cells Byte} {p : Nat} (h : ∀ k : Fin 12, k.val < p → a[k] = b[k]) :
    (ValidCells a p ∧ ValidCells b p) ∨
      ∃ k, FirstBad a p k ∧ FirstBad b p k ∧ CmdFault.invalidCharacter k a[k] = .invalidCharacter k b[k] := by
  obtain hv | ⟨k, hk⟩ := validCells_or_firstBad a p
  · exact .inl ⟨hv, validCells_congr h hv⟩
  · exact .inr ⟨k, hk, firstBad_congr h hk, congrArg _ (h k hk.1)⟩

/-- Settles O30: the outputs of a success are functions of the inputs, by the congruence lemma of each operand; where
LOOKUP or DECODE faults, `validCells_or_firstBad_congr` makes the two reports the same. -/
theorem resultsDependOnInputsOnly : Obligations.ResultsDependOnInputsOnly := by
  intro i s s' hwf hin
  cases i with
  | nop => exact ⟨_, _, exec_nop s, exec_nop s', rfl, rfl, rfl, fun _ => trivial⟩
  | clear => exact ⟨_, _, exec_clear s, exec_clear s', rfl, rfl, rfl, fun _ => ⟨rfl, rfl, rfl, rfl, rfl⟩⟩
  | clrerr => exact ⟨_, _, exec_clrerr s, exec_clrerr s', rfl, rfl, rfl, fun _ => rfl⟩
  | pack len =>
    have hlen := (legalPrecision_iff len).mp hwf
    obtain ⟨hlon, hlat⟩ := hin
    exact ⟨_, _, exec_pack hlen s, exec_pack hlen s', sameResults_succeedData (by simp [SameOutputs, hlon, hlat])⟩
  | map len =>
    have hlen := (legalPrecision_iff len).mp hwf
    have hch := mapCells_congr hin
    exact ⟨_, _, exec_map hlen s, exec_map hlen s', sameResults_succeedData (by simp [SameOutputs, hch])⟩
  | encode len =>
    have hlen := (legalPrecision_iff len).mp hwf
    obtain ⟨hlon, hlat⟩ := hin
    exact ⟨_, _, exec_encode hlen s, exec_encode hlen s', sameResults_succeedData (by simp [SameOutputs, hlon, hlat])⟩
  | lookup len =>
    have hlen := (legalPrecision_iff len).mp hwf
    have hsym := lookupSyms_congr hin
    obtain ⟨hv, hv'⟩ | ⟨k, hk, hk', hfault⟩ := validCells_or_firstBad_congr hin
    · exact ⟨_, _, exec_lookup hlen hv, exec_lookup hlen hv', sameResults_succeedData (by simp [SameOutputs, hsym])⟩
    · exact ⟨_, _, exec_lookup_bad hlen hk, exec_lookup_bad hlen hk', sameResults_takeFault _ s s' hfault⟩
  | unpack len =>
    have hlen := (legalPrecision_iff len).mp hwf
    have hlane := unpackLane_congr hlen.2 hin
    exact ⟨_, _, exec_unpack hlen s, exec_unpack hlen s', sameResults_succeedData (by simp [SameOutputs, hlane])⟩
  | decode len =>
    have hlen := (legalPrecision_iff len).mp hwf
    have hsym := lookupSyms_congr hin
    obtain ⟨hv, hv'⟩ | ⟨k, hk, hk', hfault⟩ := validCells_or_firstBad_congr hin
    · exact ⟨_, _, exec_decode hlen hv, exec_decode hlen hv', sameResults_succeedData (by simp [SameOutputs, hsym])⟩
    · exact ⟨_, _, exec_decode_bad hlen hk, exec_decode_bad hlen hk', sameResults_takeFault _ s s' hfault⟩

end Sys2Proof.Machine
end
